-- ==== Sys2Proof/Word.lean ====
section
/-! DEFINITION. The value types of the machine (00_scope.md rule R10). -/

namespace Sys2Proof

/-- One field of an instruction word, and the unit the memory list is keyed by: `[0,256)` (R10). -/
abbrev Byte := BitVec 8

/-- A memory cell and the unit of instruction encoding: `[0,2^32)`, unsigned (R10, R40). -/
abbrev Word := BitVec 32

/-- What a register cell holds: 33 bits in two's complement, `[-2^32,2^32)` (R10, R20; the width is
the spec's decision D2, notes/assumptions/2.md). -/
abbrev RegVal := BitVec 33

/-- What the program counter holds: 9 bits, unsigned (R10, R23; the width is decision D10,
notes/assumptions/10.md). -/
abbrev PcVal := BitVec 9

end Sys2Proof
end

