-- ==== Sys2Proof/Config.lean ====
section
/-! DEFINITION. The fixed constants of the hardware (00_scope.md section 4), the names of the 15
instructions, and the type of the one parameter, the opcode map. The source insists that its bounds stay
distinct (R9), so each is a constant of its own. No value of this hardware is free. -/

namespace Sys2Proof.Config

/-- `OP_SHIFT`, bits per field (R4). -/
abbrev opShift : Nat := 8

/-- `OP_MASK` (R4). -/
abbrev opMask : Nat := 0xFF

/-- `NUM_REG`, the number of registers (R5). -/
abbrev numReg : Nat := 8

/-- `RAM_LEN`, the number of memory cells (R6). -/
abbrev ramLen : Nat := 256

/-- `SIZE_LIM`, the modulus of `add` and `sub` (R7). The same number as `ramLen`, another constant. -/
abbrev sizeLim : Nat := 256

/-- Bytes in one memory cell: `WORD_W = 32` bits in four 8-bit fields (R4). -/
abbrev cellBytes : Nat := 4

end Sys2Proof.Config

namespace Sys2Proof

/-- The 15 mnemonics, in the order of the source's per-opcode table (30_encoding.md R64, R68). -/
inductive Mnemonic where
  | hlt | nop | ldi | mov | ldm | stm | add | sub | eq | lt | jmp | jz | jnz | prr | prm
  deriving DecidableEq, Repr

/-- The parameter `OPCODE`: which opcode byte spells which instruction (R8, R68). -/
abbrev OpcodeMap := Mnemonic → Byte

end Sys2Proof
end

