-- ==== Sys2Proof/Syntax.lean ====
section
/-! DEFINITION. The instructions: one constructor per row of spec/opcode_table.json, operands in slot order
(30_encoding.md R63, R64). An operand is the raw byte of its slot: a register byte of 8 or more is still an
instruction of its opcode, and the step faults on it (R71). An unused slot is no part of the instruction
(R70). -/

namespace Sys2Proof

/-- One instruction of CORE. -/
inductive Instr where
  /-- R120, stop the run. -/
  | hlt
  /-- R121, do nothing. -/
  | nop
  /-- R131, load a sign-extended immediate: `r` register, `v` immediate byte. -/
  | ldi (r v : Byte)
  /-- R133, copy a register. -/
  | mov (rd rs : Byte)
  /-- R141, load register `r` from address `a`. -/
  | ldm (r a : Byte)
  /-- R143, store register `r` to address `a`; the address comes first. -/
  | stm (a r : Byte)
  /-- R151, add modulo 256. -/
  | add (rd ra rb : Byte)
  /-- R153, subtract modulo 256. -/
  | sub (rd ra rb : Byte)
  /-- R161, test for equality. -/
  | eq (rd ra rb : Byte)
  /-- R163, test for signed less-than. -/
  | lt (rd ra rb : Byte)
  /-- R171, unconditional jump. -/
  | jmp (a : Byte)
  /-- R172, jump if the register is zero. -/
  | jz (r a : Byte)
  /-- R173, jump if the register is not zero. -/
  | jnz (r a : Byte)
  /-- R181, print a register. -/
  | prr (r : Byte)
  /-- R182, print a memory word. -/
  | prm (a : Byte)
  deriving DecidableEq, Repr

end Sys2Proof
end

