-- ==== Sys2Proof/WellFormed.lean ====
section
/-! DEFINITION. Which operand bytes are in the domain of their slot whatever the state is: the checks of
30_encoding.md R62 and R65 that depend on the instruction alone (a jump target depends on `PLEN` as well). -/

namespace Sys2Proof

/-- The four kinds of an operand slot (R62). -/
inductive SlotKind where
  | register | value | address | unused
  deriving DecidableEq, Repr

/-- A register byte is legal when it is in `[0,8)` (R65). -/
def regByteOk (b : Byte) : Bool := b.toNat < Config.numReg

/-- Every register operand names one of the 8 registers. Immediate and address bytes are all legal (R66, R67). -/
def Instr.wellFormed : Instr → Bool
  | .hlt => true
  | .nop => true
  | .ldi r _ => regByteOk r
  | .mov rd rs => regByteOk rd && regByteOk rs
  | .ldm r _ => regByteOk r
  | .stm _ r => regByteOk r
  | .add rd ra rb => regByteOk rd && regByteOk ra && regByteOk rb
  | .sub rd ra rb => regByteOk rd && regByteOk ra && regByteOk rb
  | .eq rd ra rb => regByteOk rd && regByteOk ra && regByteOk rb
  | .lt rd ra rb => regByteOk rd && regByteOk ra && regByteOk rb
  | .jmp _ => true
  | .jz r _ => regByteOk r
  | .jnz r _ => regByteOk r
  | .prr r => regByteOk r
  | .prm _ => true

end Sys2Proof
end

