-- ==== Sys2Proof/Decode.lean ====
section
/-! DEFINITION. The decoder (30_encoding.md R60 to R72), the encoder (R73), and the number conversions the
two and the meanings share (00_scope.md R11 to R13). Both take the opcode map as an argument, since `OPCODE`
is a parameter (R8, R68); `decode` and `encode` use the default of decision D1. -/

namespace Sys2Proof

/-! ## Number conversions (00_scope.md R12, R13) -/

/-- `emod(n, m)`: the remainder in `[0,m)` (R12). -/
def emod (n m : Int) : Int := n % m

/-- `sext_8(v)`: a byte read as an 8-bit two's-complement number, in `[-128,127]` (R13). -/
def sext8 (v : Byte) : Int := if 128 ≤ v.toNat then (v.toNat : Int) - 256 else v.toNat

/-- The byte of an immediate in `[-128,127]`: `emod(v, 256)` (R67, R73). -/
def immByte (v : Int) : Byte := BitVec.ofInt 8 (emod v 256)

/-- `trunc_32(n) = emod(n, 2^32)` as a word (R13). -/
def trunc32 (n : Int) : Word := BitVec.ofInt 32 (emod n (2 ^ 32))

/-- The register cell that holds the integer `n`, for `n` in `[-2^32,2^32)` (R10, R20). -/
def cellOf (n : Int) : RegVal := BitVec.ofInt 33 n

/-! ## Fields of an instruction word (R60, R61) -/

/-- Byte `k` of a word: bits `8k+7` down to `8k` (R11). -/
def byteOf (k : Nat) (w : Word) : Byte := w.extractLsb' (k * Config.opShift) 8

/-- The opcode byte, `w[7:0]` (R61). -/
def opcodeField (w : Word) : Byte := byteOf 0 w

/-- Slot 0, `w[15:8]` (R61). -/
def arg0 (w : Word) : Byte := byteOf 1 w

/-- Slot 1, `w[23:16]` (R61). -/
def arg1 (w : Word) : Byte := byteOf 2 w

/-- Slot 2, `w[31:24]` (R61). -/
def arg2 (w : Word) : Byte := byteOf 3 w

/-- The word made of an opcode byte and three slot bytes (R60, R73). -/
def packWord (op a0 a1 a2 : Byte) : Word := a2 ++ a1 ++ a0 ++ op

/-! ## The opcode map (R68) -/

/-- The 15 mnemonics as a list: what dispatch searches (R103: a finite mapping). -/
def Mnemonic.all : List Mnemonic :=
  [.hlt, .nop, .ldi, .mov, .ldm, .stm, .add, .sub, .eq, .lt, .jmp, .jz, .jnz, .prr, .prm]

/-- What the source fixes of an opcode map: codes are unique and in `[1,255]` (R68). -/
def OpcodeMap.Legal (op : OpcodeMap) : Prop := Function.Injective op ∧ ∀ m, op m ≠ 0

/-- The default numbering of R68: the spec's decision D1, not the source's (DESIGN CHOICE of the spec,
unsafe; notes/assumptions/1.md). -/
def defaultOpcode : OpcodeMap
  | .hlt => 0x01
  | .nop => 0x02
  | .ldi => 0x03
  | .mov => 0x04
  | .ldm => 0x05
  | .stm => 0x06
  | .add => 0x07
  | .sub => 0x08
  | .eq => 0x09
  | .lt => 0x0A
  | .jmp => 0x0B
  | .jz => 0x0C
  | .jnz => 0x0D
  | .prr => 0x0E
  | .prm => 0x0F

/-! ## Formats (R63, R64) -/

/-- The kinds of slots 0, 1 and 2 of each instruction (R64). -/
def Mnemonic.format : Mnemonic → SlotKind × SlotKind × SlotKind
  | .hlt => (.unused, .unused, .unused)
  | .nop => (.unused, .unused, .unused)
  | .ldi => (.register, .value, .unused)
  | .mov => (.register, .register, .unused)
  | .ldm => (.register, .address, .unused)
  | .stm => (.address, .register, .unused)
  | .add => (.register, .register, .register)
  | .sub => (.register, .register, .register)
  | .eq => (.register, .register, .register)
  | .lt => (.register, .register, .register)
  | .jmp => (.address, .unused, .unused)
  | .jz => (.register, .address, .unused)
  | .jnz => (.register, .address, .unused)
  | .prr => (.register, .unused, .unused)
  | .prm => (.address, .unused, .unused)

/-- The mnemonic of an instruction. -/
def Instr.mnemonic : Instr → Mnemonic
  | .hlt => .hlt
  | .nop => .nop
  | .ldi _ _ => .ldi
  | .mov _ _ => .mov
  | .ldm _ _ => .ldm
  | .stm _ _ => .stm
  | .add _ _ _ => .add
  | .sub _ _ _ => .sub
  | .eq _ _ _ => .eq
  | .lt _ _ _ => .lt
  | .jmp _ => .jmp
  | .jz _ _ => .jz
  | .jnz _ _ => .jnz
  | .prr _ => .prr
  | .prm _ => .prm

/-- The bytes the assembler writes into slots 0, 1 and 2: operands from slot 0 upward, zero in the unused
slots (R63, R73). -/
def Instr.slots : Instr → Byte × Byte × Byte
  | .hlt => (0, 0, 0)
  | .nop => (0, 0, 0)
  | .ldi r v => (r, v, 0)
  | .mov rd rs => (rd, rs, 0)
  | .ldm r a => (r, a, 0)
  | .stm a r => (a, r, 0)
  | .add rd ra rb => (rd, ra, rb)
  | .sub rd ra rb => (rd, ra, rb)
  | .eq rd ra rb => (rd, ra, rb)
  | .lt rd ra rb => (rd, ra, rb)
  | .jmp a => (a, 0, 0)
  | .jz r a => (r, a, 0)
  | .jnz r a => (r, a, 0)
  | .prr r => (r, 0, 0)
  | .prm a => (a, 0, 0)

/-! ## Decode -/

/-- Why a word selects no instruction: its opcode byte has no handler (R69). There is no other reason (R72). -/
inductive DecodeReject where
  | unknownOpcode (code : Byte)
  deriving DecidableEq, Repr

/-- The instruction whose code is `b` under `op`, if there is one (R103). -/
def lookupOpcode (op : OpcodeMap) (b : Byte) : Option Mnemonic := Mnemonic.all.find? fun m => op m == b

/-- The instruction of a mnemonic and three slot bytes; the bytes of unused slots are not looked at (R64, R70:
decision D8, notes/assumptions/8.md). -/
def selectInstr (m : Mnemonic) (a0 a1 a2 : Byte) : Instr :=
  match m with
  | .hlt => .hlt
  | .nop => .nop
  | .ldi => .ldi a0 a1
  | .mov => .mov a0 a1
  | .ldm => .ldm a0 a1
  | .stm => .stm a0 a1
  | .add => .add a0 a1 a2
  | .sub => .sub a0 a1 a2
  | .eq => .eq a0 a1 a2
  | .lt => .lt a0 a1 a2
  | .jmp => .jmp a0
  | .jz => .jz a0 a1
  | .jnz => .jnz a0 a1
  | .prr => .prr a0
  | .prm => .prm a0

/-- Decode a word under the opcode map `op`: total, and rejecting by name (R61, R69, R72). The operand bytes
play no part in the choice of the instruction (R103). -/
def decodeWith (op : OpcodeMap) (w : Word) : Except DecodeReject Instr :=
  match lookupOpcode op (opcodeField w) with
  | some m => .ok (selectInstr m (arg0 w) (arg1 w) (arg2 w))
  | none => .error (.unknownOpcode (opcodeField w))

/-- The decoder of the machine, with the default map. -/
def decode (w : Word) : Except DecodeReject Instr := decodeWith defaultOpcode w

/-! ## Encode (R73) -/

/-- The canonical word of an instruction under the opcode map `op` (R73). -/
def encodeWith (op : OpcodeMap) (i : Instr) : Word :=
  packWord (op i.mnemonic) i.slots.1 i.slots.2.1 i.slots.2.2

/-- The encoder with the default map. -/
def encode (i : Instr) : Word := encodeWith defaultOpcode i

/-- A byte of an unused slot replaced by zero, any other kept (R70). -/
def SlotKind.canonicalByte (k : SlotKind) (b : Byte) : Byte := if k = .unused then 0 else b

/-- The word with zeros in the slots that the format of `m` leaves unused: the canonical encoding (R70). -/
def canonicalWord (m : Mnemonic) (w : Word) : Word :=
  packWord (opcodeField w) (m.format.1.canonicalByte (arg0 w)) (m.format.2.1.canonicalByte (arg1 w))
    (m.format.2.2.canonicalByte (arg2 w))

/-- The instruction that `decode` reads from the bits `w` of an opcode-table row of `nbits` bits, every bit
above `nbits` being 0. The instruction is one word, so there is no byte order to choose (R46, R60). -/
def decodeTableWord (nbits w : Nat) : Option Instr := (decode (BitVec.ofNat 32 (w % 2 ^ nbits))).toOption

end Sys2Proof
end

