-- ==== Sys2Proof/Machine/State.lean ====
section
/-! DEFINITION. What the machine is made of (10_state.md), its value after reset, and the reasons a step can
stop. The seven execution faults of the spec are NOT stops of the model: a fault is a transition the spec
describes (60_exceptions.md R206), so it is a next state with `STATUS = Faulted`. -/

namespace Sys2Proof.Machine

/-- A register index, `[0,8)` (R10). -/
abbrev RegIdx := Fin Config.numReg

/-- Memory: the cells that differ from the zero padding, byte `k` of cell `a` at number `4a+k`, numbers
strictly rising. The numbering is the model's own and no instruction can see it (DESIGN CHOICE, safe;
notes/assumptions/17.md). -/
abbrev Memory := List Host.Cell

/-- `STATUS` (R26). -/
inductive RunStatus where
  /-- Executing. -/
  | running
  /-- Terminal, reached by `hlt`. -/
  | halted
  /-- Terminal, reached by an execution fault. -/
  | faulted
  deriving DecidableEq, Repr

/-- The seven execution faults, in the order of the source's list (60_exceptions.md R200). -/
inductive FaultKind where
  /-- R201: `pc` outside `[0,256)` at the start of a step. -/
  | instructionPointerOutOfRange
  /-- R202: the opcode byte has no handler. -/
  | unknownOpcode
  /-- R203: a register byte of 8 or more. -/
  | registerIndexOutOfRange
  /-- R204: a memory address of 256 or more; no instruction word can carry one. -/
  | memoryAddressOutOfRange
  /-- R205: a taken jump to `PLEN` or beyond. -/
  | jumpTargetOutOfRange
  /-- R207: the run loop found the budget reached. -/
  | stepBudgetExceeded
  /-- R208: a program of 256 words or more was offered at load; there is no machine state then. -/
  | programTooLong
  deriving DecidableEq, Repr

/-- `FAULT`, the fault record (R27). -/
structure FaultRecord where
  /-- Which fault. -/
  kind : FaultKind
  /-- The program counter at fault time. -/
  pc : PcVal
  /-- The fetched word, for the faults raised after the fetch. -/
  word : Option Word
  deriving DecidableEq, Repr

/-- The whole state of CORE (10_state.md section 1, R20 to R29; R31: there is nothing else). -/
structure State where
  /-- `x[0]` to `x[7]` (R20); none is hardwired. -/
  regs : Vector RegVal Config.numReg
  /-- The program counter, a word address (R23). -/
  pc : PcVal
  /-- The 256 cells of memory (20_memory.md R40). -/
  mem : Memory
  /-- `PLEN`, the length of the loaded program (R25). -/
  plen : Byte
  /-- `STATUS` (R26). -/
  status : RunStatus
  /-- `FAULT`; `none` is "no fault recorded" (R27). -/
  fault : Option FaultRecord
  /-- `STEPS`, the completed steps since the load (R28). -/
  steps : Nat
  /-- `OUT`, the printed integers, oldest first (R29). -/
  out : List Int
  deriving DecidableEq, Repr

/-- Why the model's step stops. Both say that no step is enabled (10_state.md R26, 93 U7: `stuck`), and both
are safe: the model refuses a step where the spec gives none (decision D14, notes/assumptions/13.md). -/
inductive Fault where
  /-- Raised by a step of a machine that is `Halted`. Safe. -/
  | stepWhenHalted
  /-- Raised by a step of a machine that is `Faulted`. Safe. -/
  | stepWhenFaulted
  deriving DecidableEq, Repr

/-- Why the model gives an instruction no meaning. -/
inductive Refusal where
  /-- An instruction with no meaning yet. Every instruction has one, so nothing raises it. Safe. -/
  | notModelled (mnemonic : String)
  deriving DecidableEq, Repr

/-- The outcome of a step or of a meaning. -/
abbrev Outcome := Host.Outcome State Fault Refusal

/-- The outcome of `run` (40_step_cycle.md R110), for a loop given a bounded number of iterations. -/
inductive RunOutcome where
  /-- A `hlt` was executed. -/
  | halted (s : State)
  /-- A fault ended the run; the record is the state's `fault`. -/
  | faulted (s : State)
  /-- Neither yet: the iterations given to the model ran out (R110: a run need not end). -/
  | unfinished (s : State)
  /-- The run was asked of a machine that is not `Running` (R26). -/
  | notEnabled (f : Fault)
  deriving Repr

/-- The machine after `initialize` of the empty program: every register 0, `pc` 0, memory all zero padding,
`PLEN` 0, `Running`, no fault, no step counted, nothing printed (10_state.md R32). That no program is loaded is
the model's choice (DESIGN CHOICE, notes/assumptions/18.md). -/
def State.reset : State where
  regs := Vector.replicate Config.numReg 0
  pc := 0
  mem := []
  plen := 0
  status := .running
  fault := none
  steps := 0
  out := []

end Sys2Proof.Machine
end

