-- ==== Sys2Proof/Machine/Memory.lean ====
section
/-! DEFINITION. Memory (20_memory.md): the two primitives `MemRead` and `MemWrite` (R43) over the canonical
list, and the predicate that says the list is canonical. -/

namespace Sys2Proof.Machine

/-- What a byte that is not listed reads as: the zero padding of the load (R40, R50). -/
def Memory.padding : Byte := 0

/-- Byte number `n` of memory. -/
def Memory.readByte : Memory → Nat → Byte
  | [], _ => Memory.padding
  | (k, v) :: m, n => if k = n then v else Memory.readByte m n

/-- The list without any entry for byte number `n`. -/
def Memory.eraseByte (m : Memory) (n : Nat) : Memory := m.filter fun c => c.1 ≠ n

/-- The list with `(n, v)` before the first larger number. -/
def Memory.insertByte : Memory → Nat → Byte → Memory
  | [], n, v => [(n, v)]
  | c :: m, n, v => if n < c.1 then (n, v) :: c :: m else c :: Memory.insertByte m n v

/-- Set byte number `n` to `v`; a byte equal to the padding is not listed. -/
def Memory.writeByte (m : Memory) (n : Nat) (v : Byte) : Memory :=
  if v = Memory.padding then m.eraseByte n else (m.eraseByte n).insertByte n v

/-- The number of the first byte of cell `a`: byte `k` of the cell stands `k` further (R11). -/
def Memory.cellBase (a : Nat) : Nat := Config.cellBytes * a

/-- `MemRead(a, 1)`: the word in cell `a` (R43). -/
def memRead (m : Memory) (a : Nat) : Word :=
  packWord (m.readByte (Memory.cellBase a)) (m.readByte (Memory.cellBase a + 1))
    (m.readByte (Memory.cellBase a + 2)) (m.readByte (Memory.cellBase a + 3))

/-- `MemWrite(a, 1, w)`: cell `a` set to `w`, every other cell unchanged (R43). -/
def memWrite (m : Memory) (a : Nat) (w : Word) : Memory :=
  (((m.writeByte (Memory.cellBase a) (byteOf 0 w)).writeByte (Memory.cellBase a + 1) (byteOf 1 w)).writeByte
    (Memory.cellBase a + 2) (byteOf 2 w)).writeByte (Memory.cellBase a + 3) (byteOf 3 w)

/-- The words of a program in cells `a`, `a+1`, … (R240). -/
def memLoad (m : Memory) : Nat → List Word → Memory
  | _, [] => m
  | a, w :: ws => memLoad (memWrite m a w) (a + 1) ws

/-- Every listed byte number is `lo` or more, inside memory, larger than the one before it, and not the
padding. -/
def Memory.risingFrom : Nat → Memory → Bool
  | _, [] => true
  | lo, (k, v) :: m =>
    decide (lo ≤ k) && decide (k < Memory.cellBase Config.ramLen) && decide (v ≠ Memory.padding) &&
      Memory.risingFrom (k + 1) m

/-- The canonical form: equal memories are equal lists. -/
def Memory.wf (m : Memory) : Bool := Memory.risingFrom 0 m

end Sys2Proof.Machine
end

