-- ==== Sys2Proof/Machine/Ops.lean ====
section
/-! DEFINITION. The named operations over the state (00_scope.md R14): registers, program counter, output,
taking a fault, and the load. -/

namespace Sys2Proof.Machine

/-! ## Registers, program counter, output -/

/-- `x[i]`, the signed integer the register holds (R14, R20, R22). -/
def State.reg (s : State) (i : RegIdx) : Int := (s.regs.get i).toInt

/-- `x[i] <- n`, for `n` in `[-2^32,2^32)` (R14). -/
def State.setReg (s : State) (i : RegIdx) (n : Int) : State :=
  { s with regs := s.regs.set i.val (cellOf n) i.isLt }

/-- `MemRead(a, 1)` on the machine's memory (R14). -/
def State.load (s : State) (a : Nat) : Word := memRead s.mem a

/-- `MemWrite(a, 1, w)` on the machine's memory (R14). -/
def State.store (s : State) (a : Nat) (w : Word) : State := { s with mem := memWrite s.mem a w }

/-- `pc <- pc + 1` (R106, R24). From the values a step is executed at, 0 to 255, the sum does not wrap. -/
def State.advance (s : State) : State := { s with pc := s.pc + 1 }

/-- `pc <- t`: a taken jump; `pc + 1` is not applied (R106). -/
def State.jumpTo (s : State) (t : Byte) : State := { s with pc := t.setWidth 9 }

/-- `OUT <- OUT ++ [v]` (R14, R29). -/
def State.print (s : State) (v : Int) : State := { s with out := s.out ++ [v] }

/-- `STATUS <- Halted` (R107). -/
def State.halt (s : State) : State := { s with status := .halted }

/-! ## Taking a fault (60_exceptions.md section 2)

There is no return from a fault (R212): nothing stands beside it. -/

/-- The word at `pc`, where `pc` is in the fetch range (R102). During a step `pc` does not move until the last
action (R23) and no write precedes a fault (R104), so this is the word the step fetched. -/
def State.fetchedWord (s : State) : Option Word :=
  if s.pc.toNat < Config.ramLen then some (s.load s.pc.toNat) else none

/-- Fault entry: `STATUS` and `FAULT` change and nothing else (R206). -/
def State.takeFault (s : State) (k : FaultKind) (word : Option Word) : State :=
  { s with status := .faulted, fault := some ⟨k, s.pc, word⟩ }

/-- `raise K(pc, w)`: the step ends with fault kind `K` and the fetched word (R14, R107). -/
def raise (k : FaultKind) (s : State) : Outcome := .next (s.takeFault k s.fetchedWord)

/-- The number of a fault kind, for reference only (R200, decision D11). -/
def FaultKind.code : FaultKind → Nat
  | .instructionPointerOutOfRange => 0
  | .unknownOpcode => 1
  | .registerIndexOutOfRange => 2
  | .memoryAddressOutOfRange => 3
  | .jumpTargetOutOfRange => 4
  | .stepBudgetExceeded => 5
  | .programTooLong => 6

/-- Whether a fault of this kind is raised after the fetch, so that its record holds the word (R27, decision
D13, notes/assumptions/12.md). -/
def FaultKind.carriesWord : FaultKind → Bool
  | .instructionPointerOutOfRange => false
  | .unknownOpcode => true
  | .registerIndexOutOfRange => true
  | .memoryAddressOutOfRange => true
  | .jumpTargetOutOfRange => true
  | .stepBudgetExceeded => false
  | .programTooLong => false

/-! ## Reset and load (70_reset_and_hazards.md) -/

/-- The host's reset transaction, `initialize(program)`: the one reset there is (R240). The whole old state is
discarded, so it takes none. A program of 256 words or more is refused and there is no state then (R241). -/
def loadProgram (program : List Word) : Except FaultKind State :=
  if program.length < Config.ramLen then
    .ok { State.reset with mem := memLoad [] 0 program, plen := BitVec.ofNat 8 program.length }
  else .error .programTooLong

/-- The state with `w` in the cell that the next step fetches, inside the program domain: `PLEN` grows to cover
`pc` where it does not, as a load of that word would leave it (R25, R240; notes/assumptions/18.md). Where `pc`
is not in the fetch range no step fetches and nothing changes. -/
def State.placeWord (s : State) (w : Word) : State :=
  if s.pc.toNat < Config.ramLen then
    { s.store s.pc.toNat w with
      plen := if s.plen.toNat ≤ s.pc.toNat ∧ s.pc.toNat + 1 < Config.ramLen then BitVec.ofNat 8 (s.pc.toNat + 1)
        else s.plen }
  else s

end Sys2Proof.Machine
end

