-- ==== Sys2Proof/Machine/Operands.lean ====
section
/-! DEFINITION. The operand forms and their checks (30_encoding.md R62, R65 to R67; 40_step_cycle.md R104, R105).
A meaning names its operands in slot order, each check is made before the rest of the meaning is looked at, and
the writes stand last: so every check precedes every write and the first failing slot decides the fault. -/

namespace Sys2Proof.Machine

/-- A register operand: the index, or `RegisterIndexOutOfRange` (R65, R203). -/
def withReg (b : Byte) (s : State) (k : RegIdx → Outcome) : Outcome :=
  if h : b.toNat < Config.numReg then k ⟨b.toNat, h⟩ else raise .registerIndexOutOfRange s

/-- A memory address of `ldm`, `stm`, `prm`, bounded by `RAM_LEN`: the address, or `MemoryAddressOutOfRange`
(R42, R66). The check cannot fail for a byte and is kept as the spec keeps it (R44, R204, decision D19,
notes/assumptions/16.md). -/
def withAddr (a : Byte) (s : State) (k : Nat → Outcome) : Outcome :=
  if a.toNat < Config.ramLen then k a.toNat else raise .memoryAddressOutOfRange s

/-- The end of a taken jump to `t`, bounded by `PLEN`: `pc <- t`, or `JumpTargetOutOfRange` (R170, R205). -/
def takeJump (t : Byte) (s : State) : Outcome :=
  if t.toNat < s.plen.toNat then .next (s.jumpTo t) else raise .jumpTargetOutOfRange s

/-- The immediate operand: the signed value of its byte (R67). -/
def immediate (b : Byte) : Int := sext8 b

/-- The end of an instruction that is no taken jump: its writes are done, then `pc <- pc + 1` (R106). -/
def finish (s : State) : Outcome := .next s.advance

end Sys2Proof.Machine
end

