-- ==== Sys2Proof/Machine/Arithmetic.lean ====
section
/-! DEFINITION. `add` and `sub` (44_arithmetic.md): the exact integer result, reduced modulo `SIZE_LIM` into
`[0,256)` (R150). -/

namespace Sys2Proof.Machine

/-- R151: `x[rd] <- emod(x[ra] + x[rb], 256)`. -/
def execAdd (rd ra rb : Byte) (s : State) : Outcome :=
  withReg rd s fun d => withReg ra s fun i => withReg rb s fun j =>
    finish (s.setReg d (emod (s.reg i + s.reg j) Config.sizeLim))

/-- R153: `x[rd] <- emod(x[ra] - x[rb], 256)`. -/
def execSub (rd ra rb : Byte) (s : State) : Outcome :=
  withReg rd s fun d => withReg ra s fun i => withReg rb s fun j =>
    finish (s.setReg d (emod (s.reg i - s.reg j) Config.sizeLim))

end Sys2Proof.Machine
end

