-- ==== Sys2Proof/Machine/Flags.lean ====
section
/-! DEFINITION. CORE has no flags and no condition codes (10_state.md R30). What takes their place: the truth
value that `eq` and `lt` write to a register, and the test for zero of `jz` and `jnz`. -/

namespace Sys2Proof.Machine

/-- A truth value as a register value: 1 or 0 (R30). -/
def truthValue (p : Bool) : Int := if p then 1 else 0

/-- Equality of the signed integers, no masking (45_compare.md R160, R161; decision D4, notes/assumptions/4.md). -/
def testEq (x y : Int) : Bool := x == y

/-- Order of the signed integers, no masking (R160, R163; decision D4, notes/assumptions/4.md). -/
def testLt (x y : Int) : Bool := decide (x < y)

/-- Only the integer 0 is zero: the whole cell is tested (46_control_transfer.md R172, R173). -/
def testZero (x : Int) : Bool := x == 0

end Sys2Proof.Machine
end

