-- ==== Sys2Proof/Machine/Compare.lean ====
section
/-! DEFINITION. `eq` and `lt` (45_compare.md). -/

namespace Sys2Proof.Machine

/-- R161: `x[rd] <- 1` if `x[ra] = x[rb]`, else 0. -/
def execEq (rd ra rb : Byte) (s : State) : Outcome :=
  withReg rd s fun d => withReg ra s fun i => withReg rb s fun j =>
    finish (s.setReg d (truthValue (testEq (s.reg i) (s.reg j))))

/-- R163: `x[rd] <- 1` if `x[ra] < x[rb]`, else 0. -/
def execLt (rd ra rb : Byte) (s : State) : Outcome :=
  withReg rd s fun d => withReg ra s fun i => withReg rb s fun j =>
    finish (s.setReg d (truthValue (testLt (s.reg i) (s.reg j))))

end Sys2Proof.Machine
end

