-- ==== Sys2Proof/Machine/Control.lean ====
section
/-! DEFINITION. `jmp`, `jz` and `jnz` (46_control_transfer.md). The target of a conditional jump is checked only
when the jump is taken (R175, decision D6, notes/assumptions/6.md). -/

namespace Sys2Proof.Machine

/-- R171: `pc <- a`. -/
def execJmp (a : Byte) (s : State) : Outcome := takeJump a s

/-- R172: `pc <- a` if `x[r] = 0`, else `pc <- pc + 1`. -/
def execJz (r a : Byte) (s : State) : Outcome :=
  withReg r s fun i => if testZero (s.reg i) then takeJump a s else finish s

/-- R173: `pc <- a` if `x[r] != 0`, else `pc <- pc + 1`. -/
def execJnz (r a : Byte) (s : State) : Outcome :=
  withReg r s fun i => if testZero (s.reg i) then finish s else takeJump a s

end Sys2Proof.Machine
end

