-- ==== Sys2Proof/Machine/DataMovement.lean ====
section
/-! DEFINITION. `ldi` and `mov` (42_data_movement.md). -/

namespace Sys2Proof.Machine

/-- R131: `x[r] <- sext_8(v)`. -/
def execLdi (r v : Byte) (s : State) : Outcome :=
  withReg r s fun d => finish (s.setReg d (immediate v))

/-- R133: `x[rd] <- x[rs]`, the whole signed value. -/
def execMov (rd rs : Byte) (s : State) : Outcome :=
  withReg rd s fun d => withReg rs s fun i => finish (s.setReg d (s.reg i))

end Sys2Proof.Machine
end

