-- ==== Sys2Proof/Machine/LoadStore.lean ====
section
/-! DEFINITION. `ldm` and `stm` (43_load_store.md). The only addressing mode is absolute (R140). -/

namespace Sys2Proof.Machine

/-- R141: `x[r] <- zext(MemRead(a, 1))`, never negative. -/
def execLdm (r a : Byte) (s : State) : Outcome :=
  withReg r s fun d => withAddr a s fun ea => finish (s.setReg d (s.load ea).toNat)

/-- R143: `MemWrite(a, 1, trunc_32(x[r]))`. What a negative register stores is decision D3
(notes/assumptions/3.md). `PLEN` does not change. -/
def execStm (a r : Byte) (s : State) : Outcome :=
  withAddr a s fun ea => withReg r s fun i => finish (s.store ea (trunc32 (s.reg i)))

end Sys2Proof.Machine
end

