-- ==== Sys2Proof/Machine/Output.lean ====
section
/-! DEFINITION. `prr` and `prm` (47_output.md), and the host's view of a printed integer and of a word. -/

namespace Sys2Proof.Machine

/-- R181: append the signed integer `x[r]`. -/
def execPrr (r : Byte) (s : State) : Outcome := withReg r s fun i => finish (s.print (s.reg i))

/-- R182: append the unsigned word `MemRead(a, 1)`. -/
def execPrm (a : Byte) (s : State) : Outcome := withAddr a s fun ea => finish (s.print (s.load ea).toNat)

/-- R180: the line the host shows for a printed integer, less its line end: decimal, no leading zeros, `-` for a
negative value (decision D15, notes/assumptions/14.md). -/
def valueText (v : Int) : String := (if v < 0 then "-" else "") ++ Nat.repr v.natAbs

/-- The console text of an output sequence, one line per element, in order (R29, R111). -/
def consoleLines (out : List Int) : List String := out.map valueText

/-- Hexadecimal digit `k` of a word, digit 0 the least significant. -/
def hexDigitOf (k : Nat) (w : Word) : Char := Nat.digitChar (w.toNat / 16 ^ k % 16)

/-- The 8 lowercase hexadecimal digits of a word, most significant first (20_memory.md R47; PRESUMED, the spec's
passage G1, notes/assumptions/20.md). -/
def wordText (w : Word) : String := String.ofList ([7, 6, 5, 4, 3, 2, 1, 0].map fun k => hexDigitOf k w)

end Sys2Proof.Machine
end

