-- ==== Sys2Proof/Machine/System.lean ====
section
/-! DEFINITION. `hlt` and `nop` (41_system.md). -/

namespace Sys2Proof.Machine

/-- R120: `pc <- pc + 1`, `STATUS <- Halted`. That the halting step advances `pc` is decision D5
(notes/assumptions/5.md). -/
def execHlt (s : State) : Outcome := finish s.halt

/-- R121: no effect but `pc <- pc + 1`. -/
def execNop (s : State) : Outcome := finish s

end Sys2Proof.Machine
end

