-- ==== Sys2Proof/Machine/Dispatch.lean ====
section
/-! DEFINITION. The finite mapping from instruction to handler (40_step_cycle.md R103). -/

namespace Sys2Proof.Machine

/-- The handler of each instruction, with everything a step does after dispatch (R104 to R107). -/
def exec (i : Instr) (s : State) : Host.Outcome State Fault Refusal :=
  match i with
  | .hlt => Sys2Proof.Machine.execHlt s
  | .nop => Sys2Proof.Machine.execNop s
  | .ldi r v => Sys2Proof.Machine.execLdi r v s
  | .mov rd rs => Sys2Proof.Machine.execMov rd rs s
  | .ldm r a => Sys2Proof.Machine.execLdm r a s
  | .stm a r => Sys2Proof.Machine.execStm a r s
  | .add rd ra rb => Sys2Proof.Machine.execAdd rd ra rb s
  | .sub rd ra rb => Sys2Proof.Machine.execSub rd ra rb s
  | .eq rd ra rb => Sys2Proof.Machine.execEq rd ra rb s
  | .lt rd ra rb => Sys2Proof.Machine.execLt rd ra rb s
  | .jmp a => Sys2Proof.Machine.execJmp a s
  | .jz r a => Sys2Proof.Machine.execJz r a s
  | .jnz r a => Sys2Proof.Machine.execJnz r a s
  | .prr r => Sys2Proof.Machine.execPrr r s
  | .prm a => Sys2Proof.Machine.execPrm a s

end Sys2Proof.Machine
end

