-- ==== Sys2Proof/Machine/Cycle.lean ====
section
/-! DEFINITION. The step (40_step_cycle.md R100 to R108) and the run loop with its budget (R109, R110). Both take the
opcode map: `OPCODE` is a parameter of the step relation (00_scope.md R8, 10_state.md section 1). -/

namespace Sys2Proof.Machine

/-- R108 for a machine that is `Running`: check `pc`, fetch, decode and dispatch under the map `op` (R103). `STEPS` is
the run loop's. -/
def coreStep (op : OpcodeMap) (s : State) : Outcome :=
  if s.pc.toNat < Config.ramLen then
    match decodeWith op (s.load s.pc.toNat) with
    | .ok i => exec i s
    | .error _ => raise .unknownOpcode s
  else .next (s.takeFault .instructionPointerOutOfRange none)

/-- The loop's count after a step: a step that faulted is not counted, any other is, `hlt` among them (R109). -/
def countStep : Outcome → Outcome
  | .next t => .next (if t.status = .faulted then t else { t with steps := t.steps + 1 })
  | .fault f => .fault f
  | .refused r => .refused r

/-- One iteration of the run loop: the budget is compared first, then a step is made and counted (R109, decision
D7, notes/assumptions/7.md). On a stopped machine no step is enabled (R26, decision D14). -/
def runIteration (op : OpcodeMap) (budget : Option Nat) (s : State) : Outcome :=
  match s.status with
  | .running =>
    if budget = some s.steps then .next (s.takeFault .stepBudgetExceeded none) else countStep (coreStep op s)
  | .halted => .fault .stepWhenHalted
  | .faulted => .fault .stepWhenFaulted

/-- `run(BUDGET)` (R109, R110) for at most `fuel` iterations of the loop. -/
def run (op : OpcodeMap) (budget : Option Nat) : Nat → State → RunOutcome
  | 0, s => .unfinished s
  | fuel + 1, s =>
    match runIteration op budget s with
    | .next t =>
      match t.status with
      | .running => run op budget fuel t
      | .halted => .halted t
      | .faulted => .faulted t
    | .fault f => .notEnabled f
    | .refused _ => .unfinished s

end Sys2Proof.Machine
end

