-- ==== Sys2Proof/Machine/Trace.lean ====
section
/-! DEFINITION. The optional trace (60_exceptions.md R224): a record read off the states before and after a step,
with no influence on any rule. -/

namespace Sys2Proof.Machine

/-- One trace record (R224). -/
structure TraceRecord where
  /-- `pc` before the step. -/
  pcBefore : PcVal
  /-- The decoded opcode byte. -/
  opcode : Byte
  /-- The three slot bytes. -/
  args : Byte × Byte × Byte
  /-- The registers whose value changed, with their new values. -/
  changed : List (RegIdx × Int)
  /-- `pc` after the step. -/
  pcAfter : PcVal
  deriving DecidableEq, Repr

/-- The registers that differ between two states. -/
def changedRegs (s t : State) : List (RegIdx × Int) :=
  (List.finRange Config.numReg).filterMap fun i => if s.reg i = t.reg i then none else some (i, t.reg i)

/-- The record of a step from `s` to `t`, where a word was fetched (R224). -/
def traceOf (s t : State) : Option TraceRecord :=
  s.fetchedWord.map fun w => ⟨s.pc, opcodeField w, (arg0 w, arg1 w, arg2 w), changedRegs s t, t.pc⟩

end Sys2Proof.Machine
end

