-- ==== Sys2Proof/Machine/Step.lean ====
section
/-! DEFINITION. The host's step and the placing of a word where it fetches. -/

namespace Sys2Proof.Machine

/-- The step under the opcode map `op`: one iteration of the run loop with no budget, which is one step of R108 and,
where it does not fault, the count in `STEPS` (95_test_vectors.md, conventions: a single-step vector;
notes/assumptions/7.md). -/
def stepWith (op : OpcodeMap) (s : State) : Host.Outcome State Fault Refusal := runIteration op none s

/-- The host's step: the one under the default map of decision D1 (notes/assumptions/1.md). -/
def step (s : State) : Host.Outcome State Fault Refusal := stepWith defaultOpcode s

/-- `s` with the instruction whose bits are `w` in the cell that the next step fetches. -/
def State.withFetchWord (s : State) (nbits w : Nat) : State := s.placeWord (BitVec.ofNat 32 (w % 2 ^ nbits))

end Sys2Proof.Machine
end

