-- ==== Sys2Proof/Safety.lean ====
section
/-! DEFINITION. What a legal state is, and the terms the statements use. -/

namespace Sys2Proof.Machine

/-- `FAULT` and `STATUS` agree: a record stands exactly in a `Faulted` machine (R26, R27), it holds the machine's
own `pc` (R211) and the word at `pc` exactly where its kind carries one (R27), and its kind is one a machine
with a state can record (R204, R208). -/
def State.faultConsistent (s : State) : Bool :=
  match s.fault with
  | none => decide (s.status ≠ .faulted)
  | some f =>
    decide (s.status = .faulted) && decide (f.pc = s.pc) &&
      decide (f.word = if f.kind.carriesWord then s.fetchedWord else none) &&
      decide (f.kind ≠ .memoryAddressOutOfRange) && decide (f.kind ≠ .programTooLong)

/-- Every register holds a value in `[-128, 2^32 - 1]` (R21). -/
def State.regsInRange (s : State) : Prop := ∀ i : RegIdx, -128 ≤ s.reg i ∧ s.reg i < 2 ^ 32

/-- What holds in every state that a run reaches: the memory list is canonical, `pc` is in `[0,256]` (R24), the
registers are in range (R21), and the fault record agrees with the status. -/
def State.Inv (s : State) : Prop :=
  s.mem.wf = true ∧ s.pc.toNat ≤ 256 ∧ s.regsInRange ∧ s.faultConsistent = true

/-- A run has ended (R247). -/
def State.ended (s : State) : Prop := s.status = .halted ∨ s.status = .faulted

/-- The instruction that a step at `s` runs under the opcode map `op`: the one decoded from the cell at `pc` (R101 to
R103). -/
def State.runs (s : State) (op : OpcodeMap) (i : Instr) : Prop :=
  s.pc.toNat < Config.ramLen ∧ decodeWith op (s.load s.pc.toNat) = .ok i

/-- Nothing the engine keeps beside the registers, `pc` and memory differs: `PLEN`, `STATUS`, `FAULT`, `STEPS`
and `OUT`. -/
def SameEngine (s t : State) : Prop :=
  t.plen = s.plen ∧ t.status = s.status ∧ t.fault = s.fault ∧ t.steps = s.steps ∧ t.out = s.out

/-- Every byte of memory reads as before. -/
def SameMemory (s t : State) : Prop := ∀ n, t.mem.readByte n = s.mem.readByte n

/-- Every register reads as before. -/
def SameRegs (s t : State) : Prop := ∀ i : RegIdx, t.reg i = s.reg i

/-- The frame of an instruction that writes one register and falls through: register `d` holds `v`, every other
register, all memory and the engine's state are as before, and `pc` is one more. -/
def WritesReg (s t : State) (d : RegIdx) (v : Int) : Prop :=
  t.reg d = v ∧ (∀ i : RegIdx, i ≠ d → t.reg i = s.reg i) ∧ SameMemory s t ∧ SameEngine s t ∧
    t.pc.toNat = s.pc.toNat + 1

/-- The frame of an instruction that does nothing but fall through to `pc + 1`. -/
def FallsThrough (s t : State) : Prop :=
  SameRegs s t ∧ SameMemory s t ∧ SameEngine s t ∧ t.pc.toNat = s.pc.toNat + 1

/-- The frame of a taken jump to `a`. -/
def Jumps (s t : State) (a : Byte) : Prop :=
  SameRegs s t ∧ SameMemory s t ∧ SameEngine s t ∧ t.pc.toNat = a.toNat

/-- The frame of a store of `w` to cell `a`: the cell reads `w`, every byte outside its four reads as before, and
so does every other cell; registers and the engine's state are as before, and `pc` is one more. -/
def StoresWord (s t : State) (a : Nat) (w : Word) : Prop :=
  t.load a = w ∧
    (∀ n, n < Memory.cellBase a ∨ Memory.cellBase a + Config.cellBytes ≤ n → t.mem.readByte n = s.mem.readByte n) ∧
    (∀ b, b ≠ a → t.load b = s.load b) ∧ SameRegs s t ∧ SameEngine s t ∧ t.pc.toNat = s.pc.toNat + 1

/-- The frame of a print of `v`: one element is appended to `OUT`, and nothing else but `pc` differs. -/
def Prints (s t : State) (v : Int) : Prop :=
  t.out = s.out ++ [v] ∧ SameRegs s t ∧ SameMemory s t ∧ t.plen = s.plen ∧ t.status = s.status ∧
    t.fault = s.fault ∧ t.steps = s.steps ∧ t.pc.toNat = s.pc.toNat + 1

/-- The register named by a byte below 8. -/
abbrev regOf (b : Byte) (h : b.toNat < Config.numReg) : RegIdx := ⟨b.toNat, h⟩

/-- `t` is `s` after the fault `k` was raised with the fetched word (R206): `STATUS` and `FAULT` differ, nothing
else. -/
def Faults (s t : State) (k : FaultKind) : Prop :=
  t = { s with status := .faulted, fault := some ⟨k, s.pc, s.fetchedWord⟩ }

/-- The canonical word of `i` is its code plus `operands`, whatever the opcode map (R73). -/
def EncodesAs (i : Instr) (operands : Nat) : Prop :=
  ∀ op : OpcodeMap, (encodeWith op i).toNat = (op i.mnemonic).toNat + operands

/-- The target byte of a jump (R171 to R173). -/
def jumpTarget : Instr → Option Byte
  | .jmp a => some a
  | .jz _ a => some a
  | .jnz _ a => some a
  | _ => none

/-- The destination byte of the instructions that write a register (R131 to R163). -/
def destination : Instr → Option Byte
  | .ldi r _ => some r
  | .mov rd _ => some rd
  | .ldm r _ => some r
  | .add rd _ _ => some rd
  | .sub rd _ _ => some rd
  | .eq rd _ _ => some rd
  | .lt rd _ _ => some rd
  | _ => none

/-- What a step at `s` prints under the opcode map `op`: the register of a `prr`, the word of a `prm`, else nothing
(R181, R182). -/
def State.printed (s : State) (op : OpcodeMap) : List Int :=
  match decodeWith op (s.load s.pc.toNat) with
  | .ok (.prr r) => if h : r.toNat < Config.numReg then [s.reg (regOf r h)] else []
  | .ok (.prm a) => [((s.load a.toNat).toNat : Int)]
  | _ => []

/-- The state a run of the model stands at, where the run was enabled. -/
def RunOutcome.state? : RunOutcome → Option State
  | .halted s => some s
  | .faulted s => some s
  | .unfinished s => some s
  | .notEnabled _ => none

end Sys2Proof.Machine
end

