-- ==== Sys2Proof/Certificates/Slice0/Obligations.lean ====
section
/-! DEFINITION. The statements for the provers. A docstring names the rule of spec/ a statement formalises, or
the decision of the spec and the log entry it rests on. A statement about a handler is about every state whose
`pc` is in the fetch range, since a step runs no handler elsewhere (40_step_cycle.md R101). `stepWith op` is the step under the opcode map `op`
(00_scope.md R8), and the host's `step` is the one under the default map. -/

open Sys2Proof Sys2Proof.Machine

/-! ## Encoding -/

/-- 30_encoding.md R61: the four fields of a word, as the rule's remainders and as the source's shift and mask,
and every word is made of its four fields. -/
def Obligations.WordFieldsAreItsFourBytes : Prop :=
  ∀ w : Word,
    (opcodeField w).toNat = w.toNat % 256 ∧ (arg0 w).toNat = w.toNat / 2 ^ 8 % 256 ∧
      (arg1 w).toNat = w.toNat / 2 ^ 16 % 256 ∧ (arg2 w).toNat = w.toNat / 2 ^ 24 % 256 ∧
      (∀ k, (byteOf k w).toNat = w.toNat >>> (k * Config.opShift) &&& Config.opMask) ∧
      w = packWord (opcodeField w) (arg0 w) (arg1 w) (arg2 w)

/-- R73: the canonical word is the code plus each operand byte at its place, an unused slot being zero, and an
immediate's byte is `emod(o, 256)`. -/
def Obligations.CanonicalWordIsSumOfBytes : Prop :=
  (∀ (op : OpcodeMap) (i : Instr),
    (encodeWith op i).toNat =
        (op i.mnemonic).toNat + i.slots.1.toNat * 2 ^ 8 + i.slots.2.1.toNat * 2 ^ 16 + i.slots.2.2.toNat * 2 ^ 24 ∧
      (i.mnemonic.format.1 = .unused → i.slots.1 = 0) ∧ (i.mnemonic.format.2.1 = .unused → i.slots.2.1 = 0) ∧
      (i.mnemonic.format.2.2 = .unused → i.slots.2.2 = 0)) ∧
    ∀ o : Int, -128 ≤ o → o ≤ 127 → ((immByte o).toNat : Int) = emod o 256

/-- R74, under every legal opcode map: decoding the canonical word recovers the code, the operand bytes and the
instruction, whatever its operands, and `sext_8` of an immediate's byte is the immediate. -/
def Obligations.DecodeOfEncodeRecoversInstruction : Prop :=
  ∀ op : OpcodeMap, op.Legal →
    (∀ i : Instr,
      opcodeField (encodeWith op i) = op i.mnemonic ∧ arg0 (encodeWith op i) = i.slots.1 ∧
        arg1 (encodeWith op i) = i.slots.2.1 ∧ arg2 (encodeWith op i) = i.slots.2.2 ∧
        decodeWith op (encodeWith op i) = .ok i) ∧
      ∀ v : Int, -128 ≤ v → v ≤ 127 → sext8 (immByte v) = v

/-- R70: encoding what a word decodes to gives the word with zeros in its unused slots. Rests on decision D8 of
the spec (notes/assumptions/8.md). -/
def Obligations.EncodeOfDecodeIsCanonicalWord : Prop :=
  ∀ (op : OpcodeMap) (w : Word) (i : Instr), decodeWith op w = .ok i →
    op i.mnemonic = opcodeField w ∧ encodeWith op i = canonicalWord i.mnemonic w

/-- R70: two words with the same opcode byte and the same bytes in the slots that the instruction uses decode to
the same instruction. Rests on decision D8 of the spec (notes/assumptions/8.md). -/
def Obligations.UnusedSlotBytesIgnored : Prop :=
  ∀ (op : OpcodeMap) (m : Mnemonic) (w w' : Word), op.Legal → opcodeField w = op m →
    canonicalWord m w = canonicalWord m w' →
      ∃ i, i.mnemonic = m ∧ decodeWith op w = .ok i ∧ decodeWith op w' = .ok i

/-- R69: a word is rejected exactly where its opcode byte is no instruction's code. Under every legal map the
byte 0 is rejected; under the default map of decision D1 (notes/assumptions/1.md) the rejected bytes are 0 and 16
to 255. -/
def Obligations.DecodeRejectsExactlyUnassignedOpcodes : Prop :=
  (∀ (op : OpcodeMap) (w : Word),
    decodeWith op w = .error (.unknownOpcode (opcodeField w)) ↔ ∀ m, op m ≠ opcodeField w) ∧
    (∀ (op : OpcodeMap) (w : Word), op.Legal → opcodeField w = 0 →
      decodeWith op w = .error (.unknownOpcode 0)) ∧
    ∀ w : Word, (∃ i, decode w = .ok i) ↔ 1 ≤ (opcodeField w).toNat ∧ (opcodeField w).toNat ≤ 15

/-- Words of 95_test_vectors.md S1, one for each format, and what they spell (default map: decision D1,
notes/assumptions/1.md). -/
def Obligations.SpecWordsDecodeAsSpelled : Prop :=
  decode 0x00000001 = .ok .hlt ∧ decode 0x00800703 = .ok (.ldi 7 0x80) ∧ decode 0x00060104 = .ok (.mov 1 6) ∧
    decode 0x00ff0205 = .ok (.ldm 2 255) ∧ decode 0x0007ff06 = .ok (.stm 255 7) ∧
    decode 0x05040308 = .ok (.sub 3 4 5) ∧ decode 0x00c8050d = .ok (.jnz 5 200) ∧
    decode 0x0000020e = .ok (.prr 2) ∧ decode 0x0000140f = .ok (.prm 20)

/-! ## The step -/

/-- R101 to R107: on a running machine a step is the handler of the instruction decoded at `pc` under the opcode map,
and a step that did not fault is counted in `STEPS`; the host's step is the one under the default map (decision D1,
notes/assumptions/1.md). -/
def Obligations.StepRunsTheDecodedInstruction : Prop :=
  (∀ s : State, step s = stepWith defaultOpcode s) ∧
    ∀ (op : OpcodeMap) (s t : State) (i : Instr), s.status = .running → s.runs op i → exec i s = .next t →
      stepWith op s = .next (if t.status = .faulted then t else { t with steps := t.steps + 1 })

/-- R100: a step is enabled exactly on a running machine, whatever is in memory: a running machine never stops
the model. That a stopped machine takes no step is decision D14 (notes/assumptions/13.md). -/
def Obligations.StepEnabledExactlyWhenRunning : Prop :=
  ∀ (op : OpcodeMap) (s : State), (∃ t, stepWith op s = .next t) ↔ s.status = .running

/-- R26: `Halted` and `Faulted` are terminal. The stop of the model's step there is decision D14
(notes/assumptions/13.md). -/
def Obligations.StoppedMachineTakesNoStep : Prop :=
  ∀ (op : OpcodeMap) (s : State),
    (s.status = .halted → stepWith op s = .fault .stepWhenHalted ∧
      ∀ b n, run op b (n + 1) s = .notEnabled .stepWhenHalted) ∧
    (s.status = .faulted → stepWith op s = .fault .stepWhenFaulted ∧
      ∀ b n, run op b (n + 1) s = .notEnabled .stepWhenFaulted)

/-- R101: with `pc` outside `[0,256)` the step takes `InstructionPointerOutOfRange` and no word is recorded; in a
state that meets the invariant the only such `pc` is 256, and a step arrives there only from address 255. -/
def Obligations.PcOutsideMemoryFaults : Prop :=
  ∀ (op : OpcodeMap) (s : State), s.status = .running → ¬ s.pc.toNat < 256 →
    stepWith op s = .next { s with status := .faulted, fault := some ⟨.instructionPointerOutOfRange, s.pc, none⟩ } ∧
      (s.Inv → s.pc.toNat = 256) ∧ ∀ r, stepWith op r = .next s → r.pc.toNat = 255 ∧ s.pc.toNat = 256

/-- R103: where the opcode byte is the code of an instruction under the opcode map, that instruction's handler is
selected; otherwise the step takes `UnknownOpcode` with `pc` and the word. The choice depends on the opcode byte
alone. -/
def Obligations.DispatchLooksAtOpcodeByteOnly : Prop :=
  ∀ (op : OpcodeMap) (s : State), op.Legal → s.status = .running → s.pc.toNat < 256 →
    (∀ m, op m = opcodeField (s.load s.pc.toNat) → ∃ i, i.mnemonic = m ∧ s.runs op i) ∧
      ((∀ m, op m ≠ opcodeField (s.load s.pc.toNat)) →
        stepWith op s = .next { s with
          status := .faulted, fault := some ⟨.unknownOpcode, s.pc, some (s.load s.pc.toNat)⟩ })

/-- R206: a fault changes `STATUS` and `FAULT` and nothing else, and the host gets it as the outcome of the
run. -/
def Obligations.FaultChangesStatusAndRecordOnly : Prop :=
  ∀ (op : OpcodeMap) (s t : State), stepWith op s = .next t → t.status = .faulted →
    (∃ k w, t = { s with status := .faulted, fault := some ⟨k, s.pc, w⟩ }) ∧
      ∀ n, run op none (n + 1) s = .faulted t

/-- R27, R200: what the record of a fault holds: `pc`, and the fetched word for the kinds raised after the fetch,
no word for the others. That presence is decision D13 of the spec (notes/assumptions/12.md). -/
def Obligations.FaultRecordHoldsPcAndFetchedWord : Prop :=
  ∀ (op : OpcodeMap) (b : Option Nat) (s t : State), runIteration op b s = .next t → t.status = .faulted →
    ∃ f, t.fault = some f ∧ f.pc = s.pc ∧
      (f.kind.carriesWord = true → s.pc.toNat < 256 ∧ f.word = some (s.load s.pc.toNat)) ∧
      (f.kind.carriesWord = false → f.word = none)

/-- R44, R204 (decision D19, notes/assumptions/16.md), and R208: no step and no iteration of the run loop records
`MemoryAddressOutOfRange` or `ProgramTooLong`. -/
def Obligations.AddressAndLengthFaultsNeverRecorded : Prop :=
  ∀ (op : OpcodeMap) (b : Option Nat) (s t : State) (f : FaultRecord), runIteration op b s = .next t →
    t.status = .faulted → t.fault = some f → f.kind ≠ .memoryAddressOutOfRange ∧ f.kind ≠ .programTooLong

/-- R65, R203, R209: on a running machine an instruction takes `RegisterIndexOutOfRange` exactly where one of its
register bytes is 8 or more, whatever its other operands. -/
def Obligations.RegisterFaultExactlyOnBadRegisterByte : Prop :=
  ∀ (s : State) (i : Instr), s.status = .running →
    ((∃ t, exec i s = .next t ∧ Faults s t .registerIndexOutOfRange) ↔ i.wellFormed = false)

/-! ## The instructions: result, completion and frame -/

/-- R120: `STATUS` becomes `Halted` and nothing else changes but `pc`. That `pc` advances is decision D5 of the
spec (notes/assumptions/5.md). -/
def Obligations.HltHaltsTheMachine : Prop :=
  ∀ s : State, s.pc.toNat < 256 →
    EncodesAs .hlt 0 ∧
      ∃ t, exec .hlt s = .next t ∧ t.status = .halted ∧ t.pc.toNat = s.pc.toNat + 1 ∧ SameRegs s t ∧
        SameMemory s t ∧ t.plen = s.plen ∧ t.fault = s.fault ∧ t.steps = s.steps ∧ t.out = s.out

/-- R121: `nop` does nothing but advance `pc`; a step that runs it is counted; at 255 the next step faults; and the
all-zero word is no `nop` under any legal map. -/
def Obligations.NopOnlyAdvances : Prop :=
  ∀ s : State, s.pc.toNat < 256 →
    EncodesAs .nop 0 ∧ (∀ op : OpcodeMap, op.Legal → decodeWith op 0 ≠ .ok .nop) ∧
      ∃ t, exec .nop s = .next t ∧ FallsThrough s t ∧
        ∀ op : OpcodeMap, s.status = .running →
          (s.runs op .nop → stepWith op s = .next { t with steps := s.steps + 1 }) ∧
            (s.pc.toNat = 255 → t.pc.toNat = 256 ∧ stepWith op t = .next { t with
              status := .faulted, fault := some ⟨.instructionPointerOutOfRange, t.pc, none⟩ })

/-- R131: the destination gets the immediate byte sign-extended; a bad register byte faults. -/
def Obligations.LdiLoadsSignExtendedImmediate : Prop :=
  ∀ (s : State) (r v : Byte), s.pc.toNat < 256 →
    EncodesAs (.ldi r v) (r.toNat * 2 ^ 8 + v.toNat * 2 ^ 16) ∧
      ∃ t, exec (.ldi r v) s = .next t ∧
        if h : r.toNat < 8 then
          WritesReg s t (regOf r h) (if v.toNat < 128 then (v.toNat : Int) else v.toNat - 256)
        else Faults s t .registerIndexOutOfRange

/-- R133: the whole signed value is copied; a bad register byte faults. -/
def Obligations.MovCopiesTheWholeValue : Prop :=
  ∀ (s : State) (rd rs : Byte), s.pc.toNat < 256 →
    EncodesAs (.mov rd rs) (rd.toNat * 2 ^ 8 + rs.toNat * 2 ^ 16) ∧
      ∃ t, exec (.mov rd rs) s = .next t ∧
        if h : rd.toNat < 8 ∧ rs.toNat < 8 then WritesReg s t (regOf rd h.1) (s.reg (regOf rs h.2))
        else Faults s t .registerIndexOutOfRange

/-- R141: the destination gets the word at the address, as a non-negative number; every address is accepted
whatever `PLEN` is; a bad register byte faults. -/
def Obligations.LdmLoadsTheWordUnsigned : Prop :=
  ∀ (s : State) (r a : Byte), s.pc.toNat < 256 →
    EncodesAs (.ldm r a) (r.toNat * 2 ^ 8 + a.toNat * 2 ^ 16) ∧
      ∃ t, exec (.ldm r a) s = .next t ∧
        if h : r.toNat < 8 then WritesReg s t (regOf r h) ((s.load a.toNat).toNat : Int)
        else Faults s t .registerIndexOutOfRange

/-- R143: the cell gets the register modulo `2^32`; every other byte of memory is as before; a bad register byte
faults. What a negative register stores is decision D3 of the spec (notes/assumptions/3.md). -/
def Obligations.StmStoresTheLowWord : Prop :=
  ∀ (s : State) (a r : Byte), s.pc.toNat < 256 →
    EncodesAs (.stm a r) (a.toNat * 2 ^ 8 + r.toNat * 2 ^ 16) ∧
      ∃ t, exec (.stm a r) s = .next t ∧
        if h : r.toNat < 8 then
          StoresWord s t a.toNat (trunc32 (s.reg (regOf r h))) ∧
            ((t.load a.toNat).toNat : Int) = s.reg (regOf r h) % 2 ^ 32
        else Faults s t .registerIndexOutOfRange

/-- R151: the destination gets the sum modulo 256, in `[0,256)`; a bad register byte faults. -/
def Obligations.AddWrapsModulo256 : Prop :=
  ∀ (s : State) (rd ra rb : Byte), s.pc.toNat < 256 →
    EncodesAs (.add rd ra rb) (rd.toNat * 2 ^ 8 + ra.toNat * 2 ^ 16 + rb.toNat * 2 ^ 24) ∧
      ∃ t, exec (.add rd ra rb) s = .next t ∧
        if h : rd.toNat < 8 ∧ ra.toNat < 8 ∧ rb.toNat < 8 then
          WritesReg s t (regOf rd h.1) ((s.reg (regOf ra h.2.1) + s.reg (regOf rb h.2.2)) % 256)
        else Faults s t .registerIndexOutOfRange

/-- R153: the destination gets slot 1 minus slot 2 modulo 256, in `[0,256)`; a bad register byte faults. -/
def Obligations.SubWrapsModulo256 : Prop :=
  ∀ (s : State) (rd ra rb : Byte), s.pc.toNat < 256 →
    EncodesAs (.sub rd ra rb) (rd.toNat * 2 ^ 8 + ra.toNat * 2 ^ 16 + rb.toNat * 2 ^ 24) ∧
      ∃ t, exec (.sub rd ra rb) s = .next t ∧
        if h : rd.toNat < 8 ∧ ra.toNat < 8 ∧ rb.toNat < 8 then
          WritesReg s t (regOf rd h.1) ((s.reg (regOf ra h.2.1) - s.reg (regOf rb h.2.2)) % 256)
        else Faults s t .registerIndexOutOfRange

/-- R161: 1 if the signed integers are equal, else 0; a bad register byte faults. That nothing is masked before
the comparison is decision D4 of the spec (notes/assumptions/4.md). -/
def Obligations.EqComparesSignedIntegers : Prop :=
  ∀ (s : State) (rd ra rb : Byte), s.pc.toNat < 256 →
    EncodesAs (.eq rd ra rb) (rd.toNat * 2 ^ 8 + ra.toNat * 2 ^ 16 + rb.toNat * 2 ^ 24) ∧
      ∃ t, exec (.eq rd ra rb) s = .next t ∧
        if h : rd.toNat < 8 ∧ ra.toNat < 8 ∧ rb.toNat < 8 then
          WritesReg s t (regOf rd h.1) (if s.reg (regOf ra h.2.1) = s.reg (regOf rb h.2.2) then 1 else 0)
        else Faults s t .registerIndexOutOfRange

/-- R163: 1 if slot 1 is less than slot 2 as signed integers, else 0; a bad register byte faults. That nothing is
masked before the comparison is decision D4 of the spec (notes/assumptions/4.md). -/
def Obligations.LtComparesSignedIntegers : Prop :=
  ∀ (s : State) (rd ra rb : Byte), s.pc.toNat < 256 →
    EncodesAs (.lt rd ra rb) (rd.toNat * 2 ^ 8 + ra.toNat * 2 ^ 16 + rb.toNat * 2 ^ 24) ∧
      ∃ t, exec (.lt rd ra rb) s = .next t ∧
        if h : rd.toNat < 8 ∧ ra.toNat < 8 ∧ rb.toNat < 8 then
          WritesReg s t (regOf rd h.1) (if s.reg (regOf ra h.2.1) < s.reg (regOf rb h.2.2) then 1 else 0)
        else Faults s t .registerIndexOutOfRange

/-- R171: `pc` becomes the target byte, without increment, where it is below `PLEN`; otherwise the jump faults.
A legal target is at most 254. -/
def Obligations.JmpGoesInsideTheProgram : Prop :=
  ∀ (s : State) (a : Byte),
    EncodesAs (.jmp a) (a.toNat * 2 ^ 8) ∧
      ∃ t, exec (.jmp a) s = .next t ∧
        if a.toNat < s.plen.toNat then Jumps s t a ∧ t.pc.toNat ≤ 254
        else Faults s t .jumpTargetOutOfRange

/-- R172: the jump is taken where the register is 0, and only then is the target checked (R175, decision D6 of the
spec, notes/assumptions/6.md). -/
def Obligations.JzJumpsOnZero : Prop :=
  ∀ (s : State) (r a : Byte), s.pc.toNat < 256 →
    EncodesAs (.jz r a) (r.toNat * 2 ^ 8 + a.toNat * 2 ^ 16) ∧
      ∃ t, exec (.jz r a) s = .next t ∧
        if h : r.toNat < 8 then
          if s.reg (regOf r h) = 0 then
            if a.toNat < s.plen.toNat then Jumps s t a else Faults s t .jumpTargetOutOfRange
          else FallsThrough s t
        else Faults s t .registerIndexOutOfRange

/-- R173: the jump is taken where the register is not 0, and only then is the target checked (R175, decision D6 of
the spec, notes/assumptions/6.md). -/
def Obligations.JnzJumpsOnNonZero : Prop :=
  ∀ (s : State) (r a : Byte), s.pc.toNat < 256 →
    EncodesAs (.jnz r a) (r.toNat * 2 ^ 8 + a.toNat * 2 ^ 16) ∧
      ∃ t, exec (.jnz r a) s = .next t ∧
        if h : r.toNat < 8 then
          if s.reg (regOf r h) = 0 then FallsThrough s t
          else if a.toNat < s.plen.toNat then Jumps s t a else Faults s t .jumpTargetOutOfRange
        else Faults s t .registerIndexOutOfRange

/-- R181: the signed integer of the register is appended to `OUT`; a bad register byte faults and prints
nothing. -/
def Obligations.PrrAppendsTheRegister : Prop :=
  ∀ (s : State) (r : Byte), s.pc.toNat < 256 →
    EncodesAs (.prr r) (r.toNat * 2 ^ 8) ∧
      ∃ t, exec (.prr r) s = .next t ∧
        if h : r.toNat < 8 then Prints s t (s.reg (regOf r h)) else Faults s t .registerIndexOutOfRange

/-- R182: the unsigned word at the address is appended to `OUT`, whatever the address and `PLEN`. That a word is
never printed as negative is decision D3 of the spec (notes/assumptions/3.md). -/
def Obligations.PrmAppendsTheUnsignedWord : Prop :=
  ∀ (s : State) (a : Byte), s.pc.toNat < 256 →
    EncodesAs (.prm a) (a.toNat * 2 ^ 8) ∧
      ∃ t, exec (.prm a) s = .next t ∧ Prints s t ((s.load a.toNat).toNat : Int)

/-- R150: the results of `add` and `sub` are in `[0,255]` and depend on nothing but the two operands modulo 256,
so that -1, 255 and `2^32 - 1` act alike. -/
def Obligations.AddSubSeeOnlyLowBytes : Prop :=
  ∀ (s s' : State) (d a b : RegIdx), emod (s.reg a) 256 = emod (s'.reg a) 256 →
    emod (s.reg b) 256 = emod (s'.reg b) 256 →
    ∀ i ∈ [Instr.add (BitVec.ofNat 8 d) (BitVec.ofNat 8 a) (BitVec.ofNat 8 b),
        Instr.sub (BitVec.ofNat 8 d) (BitVec.ofNat 8 a) (BitVec.ofNat 8 b)],
      ∃ t t', exec i s = .next t ∧ exec i s' = .next t' ∧ t.reg d = t'.reg d ∧ 0 ≤ t.reg d ∧ t.reg d < 256

/-! ## Memory -/

/-- R142: a register stored and loaded back is the same number if it was non-negative (and within a word), and
`2^32` more if it was negative. The negative half is decision D3 of the spec (notes/assumptions/3.md). -/
def Obligations.StoreThenLoadGivesUnsignedValue : Prop :=
  ∀ (s : State) (r d : RegIdx) (a : Byte),
    ∃ t u, exec (.stm a (BitVec.ofNat 8 r)) s = .next t ∧ exec (.ldm (BitVec.ofNat 8 d) a) t = .next u ∧
      (0 ≤ s.reg r → u.reg d = s.reg r) ∧ (s.reg r < 0 → u.reg d = 2 ^ 32 + s.reg r)

/-- R56 (the spec's derivation, notes/assumptions/19.md): the word that a `stm` puts into the next cell is the word
that the next step fetches. -/
def Obligations.StoredWordIsFetchedNext : Prop :=
  ∀ (op : OpcodeMap) (s : State) (a : Byte) (r : RegIdx), s.status = .running → s.runs op (.stm a (BitVec.ofNat 8 r)) →
    a.toNat = s.pc.toNat + 1 →
      ∃ t, stepWith op s = .next t ∧ t.status = .running ∧ t.fetchedWord = some (trunc32 (s.reg r))

/-- The memory list of the model is canonical: two lists that read alike at every byte are one list
(notes/assumptions/17.md: the model's own representation). -/
def Obligations.MemoriesThatReadAlikeAreEqual : Prop :=
  ∀ m m' : Memory, m.wf = true → m'.wf = true → (∀ n, m.readByte n = m'.readByte n) → m = m'

/-- R9, R42: the bound of a jump and the bound of memory are two bounds: at any address from `PLEN` up, `ldm`,
`stm` and `prm` complete and `jmp` faults. -/
def Obligations.JumpBoundIsNotMemoryBound : Prop :=
  ∀ (s : State) (a : Byte) (r : RegIdx), s.plen.toNat ≤ a.toNat →
    (∃ t, exec (.jmp a) s = .next t ∧ Faults s t .jumpTargetOutOfRange) ∧
      ∀ i ∈ [Instr.ldm (BitVec.ofNat 8 r) a, Instr.stm a (BitVec.ofNat 8 r), Instr.prm a],
        ∃ t, exec i s = .next t ∧ t.status = s.status ∧ t.pc = s.pc + 1

/-! ## Reset and load -/

/-- R32 with no program (the model's choice for its reset state, notes/assumptions/18.md; `STEPS` 0 and `OUT` empty
are decisions D7 and D15 of the spec): every part of the state after reset, and that it is the state that loading
the empty program gives. -/
def Obligations.ResetStateIsTheEmptyLoad : Prop :=
  (∀ i : RegIdx, State.reset.reg i = 0) ∧ State.reset.pc = 0 ∧ (∀ a, State.reset.load a = 0) ∧
    State.reset.plen = 0 ∧ State.reset.status = .running ∧ State.reset.fault = none ∧ State.reset.steps = 0 ∧
    State.reset.out = [] ∧ loadProgram [] = .ok State.reset

/-- R32, R240: what the load of a program of fewer than 256 words leaves: the program from address 0, zero beyond
it, and every other part of the state (`STEPS` 0 and `OUT` empty are decisions D7 and D15 of the spec,
notes/assumptions/7.md and 14.md). -/
def Obligations.LoadLeavesProgramAndZeroPadding : Prop :=
  ∀ p : List Word, p.length < 256 →
    ∃ s, loadProgram p = .ok s ∧ (∀ a (h : a < p.length), s.load a = p[a]) ∧ (∀ a, p.length ≤ a → s.load a = 0) ∧
      s.plen.toNat = p.length ∧ (∀ i : RegIdx, s.reg i = 0) ∧ s.pc = 0 ∧ s.status = .running ∧ s.fault = none ∧
      s.steps = 0 ∧ s.out = []

/-- R208: the load fails with `ProgramTooLong` exactly for 256 words or more; there is no state then, and so no
`pc`, no word and no run. -/
def Obligations.LoadFailsExactlyFrom256Words : Prop :=
  ∀ p : List Word,
    (loadProgram p = .error .programTooLong ↔ 256 ≤ p.length) ∧ ((∃ s, loadProgram p = .ok s) ↔ p.length ≤ 255)

/-! ## Invariants and whole-machine rules -/

/-- The invariant (R21, R24, R26, R27, R211, the canonical form of memory) holds at reset. -/
def Obligations.ResetMeetsTheInvariant : Prop := State.reset.Inv

/-- The invariant holds in every state that a load gives. -/
def Obligations.LoadedStateMeetsTheInvariant : Prop :=
  ∀ (p : List Word) (s : State), loadProgram p = .ok s → s.Inv

/-- Every step of the host keeps the invariant: memory canonical, `pc` in `[0,256]` (R24), registers in
`[-128, 2^32 - 1]` (R21), the fault record in agreement with the status, `pc` and the fetched word (R27, R211).
`Obligations.EveryRunKeepsTheInvariant` says it under every opcode map. -/
def Obligations.EveryStepKeepsTheInvariant : Prop :=
  ∀ s t : State, s.Inv → step s = .next t → t.Inv

/-- Every run, under any opcode map and any budget and of any length, keeps the invariant. -/
def Obligations.EveryRunKeepsTheInvariant : Prop :=
  ∀ (op : OpcodeMap) (b : Option Nat) (n : Nat) (s t : State), s.Inv → (run op b n s).state? = some t → t.Inv

/-- R24, R106: a step that faults leaves `pc`; any other sets it to `pc + 1` or, at a jump, to its target inside the
program. That `hlt` is among those that advance is decision D5 of the spec (notes/assumptions/5.md). -/
def Obligations.PcMovesOnlyByTheRules : Prop :=
  ∀ (op : OpcodeMap) (s t : State), stepWith op s = .next t →
    (t.status = .faulted → t.pc = s.pc) ∧
      (t.status ≠ .faulted → t.pc.toNat = s.pc.toNat + 1 ∨
        ∃ i a, s.runs op i ∧ jumpTarget i = some a ∧ a.toNat < s.plen.toNat ∧ t.pc.toNat = a.toNat)

/-- R25: no run changes `PLEN`. -/
def Obligations.NoRunChangesTheProgramLength : Prop :=
  ∀ (op : OpcodeMap) (b : Option Nat) (n : Nat) (s t : State), (run op b n s).state? = some t → t.plen = s.plen

/-- R111: a step appends to `OUT` exactly what its `prr` or `prm` prints, and what was printed stays in front
through any run, one that ends in a fault among them. -/
def Obligations.OutputListsPrintsInOrder : Prop :=
  ∀ op : OpcodeMap,
    (∀ s t : State, s.pc.toNat < 256 → stepWith op s = .next t → t.out = s.out ++ s.printed op) ∧
    (∀ s t : State, ¬ s.pc.toNat < 256 → stepWith op s = .next t → t.out = s.out) ∧
    ∀ (b : Option Nat) (n : Nat) (s t : State), (run op b n s).state? = some t → s.out <+: t.out

/-- R110: a step ends `Halted` exactly where it executed a `hlt`. -/
def Obligations.HaltedExactlyByHlt : Prop :=
  ∀ (op : OpcodeMap) (s t : State), stepWith op s = .next t → (t.status = .halted ↔ s.runs op .hlt)

/-! ## The run loop and its budget -/

/-- R109 (decision D7 of the spec, notes/assumptions/7.md): a run under a budget of `n` ends, after at most `n` counted
steps and one more iteration, and never counts more than `n`. -/
def Obligations.BudgetedRunEnds : Prop :=
  ∀ (op : OpcodeMap) (n fuel : Nat) (s : State), s.status = .running → s.steps ≤ n → n < s.steps + fuel →
    ∃ t, (run op (some n) fuel s = .halted t ∨ run op (some n) fuel s = .faulted t) ∧ t.steps ≤ n

/-- R207, R109 (decision D7 of the spec, notes/assumptions/7.md): a run under a budget of `n` that faults, faults with
`StepBudgetExceeded` exactly where `n` steps were counted; and a run with no budget never does. -/
def Obligations.BudgetFaultExactlyAtTheBudget : Prop :=
  (∀ (op : OpcodeMap) (n fuel : Nat) (s t : State), s.status = .running → s.steps ≤ n →
    run op (some n) fuel s = .faulted t → ((∃ f, t.fault = some f ∧ f.kind = .stepBudgetExceeded) ↔ t.steps = n)) ∧
    ∀ (op : OpcodeMap) (fuel : Nat) (s t : State) (f : FaultRecord), run op none fuel s = .faulted t →
      t.fault = some f → f.kind ≠ .stepBudgetExceeded

/-- R109: a budget that the run does not reach changes nothing: the run with no budget and the run with it end in one
state. Where the budget is compared is decision D7 of the spec (notes/assumptions/7.md). -/
def Obligations.UnreachedBudgetChangesNothing : Prop :=
  ∀ (op : OpcodeMap) (n fuel : Nat) (s t : State), s.status = .running →
    (run op none fuel s = .halted t → t.steps ≤ n → run op (some n) fuel s = .halted t) ∧
      (run op none fuel s = .faulted t → t.steps < n → run op (some n) fuel s = .faulted t)

/-- R109, R209 (decision D7 of the spec, notes/assumptions/7.md): a reached budget wins over anything the next step
would do; and a `hlt` that is the last step of the budget halts. -/
def Obligations.BudgetIsComparedBeforeTheStep : Prop :=
  ∀ (op : OpcodeMap) (s : State), s.status = .running →
    (∀ n, run op (some s.steps) (n + 1) s =
      .faulted { s with status := .faulted, fault := some ⟨.stepBudgetExceeded, s.pc, none⟩ }) ∧
      (s.runs op .hlt → ∀ n, ∃ t, run op (some (s.steps + 1)) (n + 1) s = .halted t ∧ t.steps = s.steps + 1)

/-! ## The opcode map as a parameter -/

/-- R8, R68: the opcode map is a parameter of the step. Under every legal map the canonical word of an instruction runs
that instruction, whose handler does not know the map, and a step that did not fault is counted. -/
def Obligations.EncodedInstructionRunsUnderEveryMap : Prop :=
  ∀ (op : OpcodeMap) (s : State) (i : Instr), op.Legal → s.status = .running → s.pc.toNat < 256 →
    s.load s.pc.toNat = encodeWith op i →
      ∃ t, exec i s = .next t ∧
        stepWith op s = .next (if t.status = .faulted then t else { t with steps := t.steps + 1 })
end

