-- ==== Sys2Proof/Laws/Decode.lean ====
section
/-! SUPPORT. Fields and packing, and what the search for an opcode finds. -/

namespace Sys2Proof.Laws

@[simp] theorem opcodeField_packWord (op a b c : Byte) : opcodeField (packWord op a b c) = op := by
  apply BitVec.eq_of_getLsbD_eq
  intro i hi
  simp only [opcodeField, byteOf, packWord, BitVec.getLsbD_extractLsb', BitVec.getLsbD_append]
  simp [hi]

@[simp] theorem arg0_packWord (op a b c : Byte) : arg0 (packWord op a b c) = a := by
  apply BitVec.eq_of_getLsbD_eq
  intro i hi
  simp only [arg0, byteOf, packWord, BitVec.getLsbD_extractLsb', BitVec.getLsbD_append]
  simp [hi]

@[simp] theorem arg1_packWord (op a b c : Byte) : arg1 (packWord op a b c) = b := by
  apply BitVec.eq_of_getLsbD_eq
  intro i hi
  simp only [arg1, byteOf, packWord, BitVec.getLsbD_extractLsb', BitVec.getLsbD_append]
  have h1 : ¬ 2 * 8 + i < 8 := by omega
  have h2 : ¬ 2 * 8 + i - 8 < 8 := by omega
  have h3 : 2 * 8 + i - 8 - 8 = i := by omega
  simp [hi, h1, h2, h3]

@[simp] theorem arg2_packWord (op a b c : Byte) : arg2 (packWord op a b c) = c := by
  apply BitVec.eq_of_getLsbD_eq
  intro i hi
  simp only [arg2, byteOf, packWord, BitVec.getLsbD_extractLsb', BitVec.getLsbD_append]
  have h1 : ¬ 3 * 8 + i < 8 := by omega
  have h2 : ¬ 3 * 8 + i - 8 < 8 := by omega
  have h3 : ¬ 3 * 8 + i - 8 - 8 < 8 := by omega
  have h4 : 3 * 8 + i - 8 - 8 - 8 = i := by omega
  simp [hi, h1, h2, h3, h4]

/-- A word is made of its four fields. -/
@[simp] theorem packWord_fields (w : Word) : packWord (opcodeField w) (arg0 w) (arg1 w) (arg2 w) = w := by
  apply BitVec.eq_of_getLsbD_eq
  intro i hi
  simp only [opcodeField, arg0, arg1, arg2, byteOf, packWord, BitVec.getLsbD_extractLsb', BitVec.getLsbD_append]
  rcases Nat.lt_or_ge i 8 with h | h
  · simp [h]
  rcases Nat.lt_or_ge i 16 with h' | h'
  · have e : i - 8 < 8 := by omega
    have e1 : 8 + (i - 8) = i := by omega
    simp [Nat.not_lt.mpr h, e, e1]
  rcases Nat.lt_or_ge i 24 with h'' | h''
  · have e0 : ¬ i - 8 < 8 := by omega
    have e : i - 8 - 8 < 8 := by omega
    have e1 : 2 * Config.opShift + (i - 8 - 8) = i := by simp only [Config.opShift]; omega
    simp [Nat.not_lt.mpr h, e0, e, e1]
  · have e0 : ¬ i - 8 < 8 := by omega
    have e1 : ¬ i - 8 - 8 < 8 := by omega
    have e2 : i - 8 - 8 - 8 < 8 := by omega
    have e3 : 3 * Config.opShift + (i - 8 - 8 - 8) = i := by simp only [Config.opShift]; omega
    simp [Nat.not_lt.mpr h, e0, e1, e2, e3]

/-- Every mnemonic is in the list that dispatch searches. -/
theorem mem_all (m : Mnemonic) : m ∈ Mnemonic.all := by cases m <;> decide

/-- What the search finds has the code it was searched by. -/
theorem code_of_lookup {op : OpcodeMap} {b : Byte} {m : Mnemonic} (h : lookupOpcode op b = some m) : op m = b := by
  have := List.find?_some h
  simpa using this

/-- Under an injective map the search finds the mnemonic of a code. -/
theorem lookup_code {op : OpcodeMap} (hop : Function.Injective op) (m : Mnemonic) :
    lookupOpcode op (op m) = some m := by
  cases h : lookupOpcode op (op m) with
  | some m' => rw [hop (code_of_lookup h)]
  | none =>
    have := List.find?_eq_none.mp h m (mem_all m)
    simp at this

/-- The search finds nothing exactly where no mnemonic has the code. -/
theorem lookup_eq_none {op : OpcodeMap} {b : Byte} : lookupOpcode op b = none ↔ ∀ m, op m ≠ b := by
  unfold lookupOpcode
  rw [List.find?_eq_none]
  simp [mem_all]

/-- What the decoder can answer: the selected instruction, or a rejection of the opcode byte. -/
theorem decodeWith_cases (op : OpcodeMap) (w : Word) :
    (∃ m, lookupOpcode op (opcodeField w) = some m ∧
        decodeWith op w = .ok (selectInstr m (arg0 w) (arg1 w) (arg2 w))) ∨
      (lookupOpcode op (opcodeField w) = none ∧ decodeWith op w = .error (.unknownOpcode (opcodeField w))) := by
  unfold decodeWith
  cases h : lookupOpcode op (opcodeField w) with
  | some m => exact .inl ⟨m, rfl, rfl⟩
  | none => exact .inr ⟨rfl, rfl⟩

@[simp] theorem mnemonic_selectInstr (m : Mnemonic) (a b c : Byte) : (selectInstr m a b c).mnemonic = m := by
  cases m <;> rfl

end Sys2Proof.Laws
end

