-- ==== Sys2Proof/Laws/Memory.lean ====
section
/-! SUPPORT. Memory: a read after a write, the bytes a write leaves alone, and the canonical form. -/

namespace Sys2Proof.Laws

open Sys2Proof.Machine

/-! ## One byte -/

@[simp] theorem readByte_nil (n : Nat) : Memory.readByte [] n = Memory.padding := rfl

theorem readByte_eraseByte (m : Memory) (n k : Nat) :
    (m.eraseByte n).readByte k = if k = n then Memory.padding else m.readByte k := by
  unfold Memory.eraseByte
  induction m with
  | nil => simp
  | cons c m ih =>
    by_cases h : c.1 = n
    · rw [List.filter_cons_of_neg (by simpa using h), ih]
      split <;> rename_i hk
      · rfl
      · simp [Memory.readByte, h, Ne.symm hk]
    · rw [List.filter_cons_of_pos (by simpa using h)]
      simp only [Memory.readByte, ih]
      split <;> split <;> simp_all

theorem readByte_insertByte (m : Memory) (n k : Nat) (v : Byte) (h : ∀ c ∈ m, c.1 ≠ n) :
    (m.insertByte n v).readByte k = if k = n then v else m.readByte k := by
  induction m with
  | nil => simp only [Memory.insertByte, Memory.readByte, eq_comm]
  | cons c m ih =>
    have hc : c.1 ≠ n := h c (by simp)
    have ih := ih fun c hm => h c (by simp [hm])
    unfold Memory.insertByte
    split
    · simp only [Memory.readByte, eq_comm]
    · simp only [Memory.readByte, ih]
      split <;> split <;> simp_all

theorem ne_of_mem_eraseByte {m : Memory} {n : Nat} {c : Host.Cell} (h : c ∈ m.eraseByte n) : c.1 ≠ n := by
  simpa using (List.mem_filter.mp h).2

/-- A byte write sets its byte and leaves every other alone, whatever the list. -/
theorem readByte_writeByte (m : Memory) (n k : Nat) (v : Byte) :
    (m.writeByte n v).readByte k = if k = n then v else m.readByte k := by
  unfold Memory.writeByte
  split
  · rename_i hv
    rw [readByte_eraseByte, hv]
  · rw [readByte_insertByte _ _ _ _ fun c => ne_of_mem_eraseByte, readByte_eraseByte]
    split <;> simp_all

/-! ## One cell -/

/-- A word write leaves every byte outside its cell alone. -/
theorem readByte_memWrite_of_outside (m : Memory) (a n : Nat) (w : Word)
    (h : n < Memory.cellBase a ∨ Memory.cellBase a + 4 ≤ n) : (memWrite m a w).readByte n = m.readByte n := by
  unfold memWrite
  simp only [readByte_writeByte]
  rw [if_neg (by omega), if_neg (by omega), if_neg (by omega), if_neg (by omega)]

/-- A word written is the word read back. -/
@[simp] theorem memRead_memWrite_same (m : Memory) (a : Nat) (w : Word) : memRead (memWrite m a w) a = w := by
  unfold memRead memWrite
  simp only [readByte_writeByte]
  simp
  exact packWord_fields w

/-- A word write leaves every other cell alone. -/
theorem memRead_memWrite_ne (m : Memory) {a b : Nat} (w : Word) (h : b ≠ a) :
    memRead (memWrite m a w) b = memRead m b := by
  unfold memRead
  simp only [Memory.cellBase, Config.cellBytes]
  rw [readByte_memWrite_of_outside, readByte_memWrite_of_outside, readByte_memWrite_of_outside,
    readByte_memWrite_of_outside] <;> simp only [Memory.cellBase, Config.cellBytes] <;> omega

/-- A cell that no entry is listed for reads 0. -/
@[simp] theorem memRead_nil (a : Nat) : memRead [] a = 0 := by
  unfold memRead
  simp only [readByte_nil]
  decide

/-- What the cells hold after the words `ws` were placed from `a` on. -/
theorem memRead_memLoad (m : Memory) (a b : Nat) (ws : List Word) :
    memRead (memLoad m a ws) b = if a ≤ b then ws.getD (b - a) (memRead m b) else memRead m b := by
  induction ws generalizing m a with
  | nil => simp [memLoad]
  | cons w ws ih =>
    rw [memLoad, ih]
    rcases Nat.lt_trichotomy a b with h | h | h
    · rw [if_pos (by omega), if_pos (by omega), memRead_memWrite_ne _ _ (by omega),
        show b - a = (b - (a + 1)) + 1 by omega]
      simp
    · subst h
      rw [if_neg (by omega), if_pos (by omega)]
      simp
    · rw [if_neg (by omega), if_neg (by omega), memRead_memWrite_ne _ _ (by omega)]

/-! ## The canonical form -/

theorem risingFrom_mono {lo lo' : Nat} {m : Memory} (h : lo' ≤ lo) (hm : Memory.risingFrom lo m = true) :
    Memory.risingFrom lo' m = true := by
  cases m with
  | nil => rfl
  | cons c m =>
    simp only [Memory.risingFrom, Bool.and_eq_true, decide_eq_true_eq] at hm ⊢
    exact ⟨⟨⟨by omega, hm.1.1.2⟩, hm.1.2⟩, hm.2⟩

theorem risingFrom_eraseByte {lo : Nat} {m : Memory} (n : Nat) (hm : Memory.risingFrom lo m = true) :
    Memory.risingFrom lo (m.eraseByte n) = true := by
  unfold Memory.eraseByte
  induction m generalizing lo with
  | nil => rfl
  | cons c m ih =>
    simp only [Memory.risingFrom, Bool.and_eq_true, decide_eq_true_eq] at hm
    by_cases h : c.1 = n
    · rw [List.filter_cons_of_neg (by simpa using h)]
      exact ih (risingFrom_mono (by omega) hm.2)
    · rw [List.filter_cons_of_pos (by simpa using h)]
      simp only [Memory.risingFrom, Bool.and_eq_true, decide_eq_true_eq]
      exact ⟨hm.1, ih hm.2⟩

theorem risingFrom_insertByte {lo n : Nat} {v : Byte} {m : Memory} (hlo : lo ≤ n)
    (hn : n < Memory.cellBase Config.ramLen) (hv : v ≠ Memory.padding) (hne : ∀ c ∈ m, c.1 ≠ n)
    (hm : Memory.risingFrom lo m = true) : Memory.risingFrom lo (m.insertByte n v) = true := by
  induction m generalizing lo with
  | nil => simp [Memory.insertByte, Memory.risingFrom, hlo, hn, hv]
  | cons c m ih =>
    have hc : c.1 ≠ n := hne c (by simp)
    simp only [Memory.risingFrom, Bool.and_eq_true, decide_eq_true_eq] at hm
    unfold Memory.insertByte
    split
    · simp only [Memory.risingFrom, Bool.and_eq_true, decide_eq_true_eq]
      exact ⟨⟨⟨hlo, hn⟩, hv⟩, ⟨⟨⟨by omega, hm.1.1.2⟩, hm.1.2⟩, hm.2⟩⟩
    · simp only [Memory.risingFrom, Bool.and_eq_true, decide_eq_true_eq]
      exact ⟨hm.1, ih (by omega) (fun c h => hne c (by simp [h])) hm.2⟩

/-- A byte write inside memory keeps the canonical form. -/
theorem wf_writeByte {m : Memory} {n : Nat} (v : Byte) (hn : n < Memory.cellBase Config.ramLen)
    (hm : m.wf = true) : (m.writeByte n v).wf = true := by
  unfold Memory.writeByte
  split
  · exact risingFrom_eraseByte n hm
  · rename_i hv
    exact risingFrom_insertByte (Nat.zero_le n) hn hv (fun c => ne_of_mem_eraseByte) (risingFrom_eraseByte n hm)

/-- A word write to a cell of memory keeps the canonical form. -/
theorem wf_memWrite {m : Memory} {a : Nat} (w : Word) (ha : a < Config.ramLen) (hm : m.wf = true) :
    (memWrite m a w).wf = true := by
  unfold memWrite
  have h : Memory.cellBase a + 4 ≤ Memory.cellBase Config.ramLen := by
    simp only [Memory.cellBase, Config.cellBytes]; omega
  exact wf_writeByte _ (by omega) (wf_writeByte _ (by omega) (wf_writeByte _ (by omega) (wf_writeByte _ (by omega) hm)))

/-- Placing words inside memory keeps the canonical form. -/
theorem wf_memLoad {m : Memory} {a : Nat} {ws : List Word} (h : a + ws.length ≤ Config.ramLen) (hm : m.wf = true) :
    (memLoad m a ws).wf = true := by
  induction ws generalizing m a with
  | nil => exact hm
  | cons w ws ih =>
    simp only [List.length_cons] at h
    exact ih (by omega) (wf_memWrite w (by omega) hm)

end Sys2Proof.Laws
end

