-- ==== Sys2Proof/Laws/Values.lean ====
section
/-! SUPPORT. The number conversions: ranges, and what narrowing to a cell or a word keeps. -/

namespace Sys2Proof.Laws

theorem emod_nonneg (n : Int) {m : Int} (hm : 0 < m) : 0 ≤ emod n m :=
  Int.emod_nonneg n (by omega)

theorem emod_lt (n : Int) {m : Int} (hm : 0 < m) : emod n m < m :=
  Int.emod_lt_of_pos n hm

/-- `sext_8` is in `[-128,127]`. -/
theorem sext8_range (v : Byte) : -128 ≤ sext8 v ∧ sext8 v ≤ 127 := by
  have h : v.toNat < 256 := v.isLt
  unfold sext8
  split <;> omega

/-- A cell keeps every integer of its range. -/
theorem toInt_cellOf {n : Int} (lo : -2 ^ 32 ≤ n) (hi : n < 2 ^ 32) : (cellOf n).toInt = n := by
  unfold cellOf
  rw [BitVec.toInt_ofInt, Int.bmod_eq_of_le] <;> omega

/-- A cell's integer is in the range of the cell. -/
theorem toInt_range (c : RegVal) : -2 ^ 32 ≤ c.toInt ∧ c.toInt < 2 ^ 32 :=
  ⟨BitVec.le_toInt c, BitVec.toInt_lt⟩

/-- The integer of a cell makes the cell again. -/
theorem cellOf_toInt (c : RegVal) : cellOf c.toInt = c := by
  unfold cellOf
  exact BitVec.ofInt_toInt

/-- The unsigned value of `trunc_32(n)`. -/
theorem trunc32_toNat (n : Int) : ((trunc32 n).toNat : Int) = emod n (2 ^ 32) := by
  have h0 := emod_nonneg n (m := 2 ^ 32) (by decide)
  have h1 := emod_lt n (m := 2 ^ 32) (by decide)
  unfold trunc32
  rw [BitVec.toNat_ofInt]
  omega

end Sys2Proof.Laws
end

