-- ==== Sys2Proof/Laws/State.lean ====
section
/-! SUPPORT. One lemma per field per update of the state. -/

namespace Sys2Proof.Laws

open Sys2Proof.Machine

variable (s : State)

/-! ## setReg -/

/-- The written register reads back, for an integer the cell can hold. -/
theorem reg_setReg_same (i : RegIdx) {n : Int} (lo : -2 ^ 32 ≤ n) (hi : n < 2 ^ 32) : (s.setReg i n).reg i = n := by
  simp [State.reg, State.setReg, Vector.get_eq_getElem, toInt_cellOf lo hi]

/-- Every other register is as before. -/
theorem reg_setReg_ne {i j : RegIdx} (n : Int) (h : j ≠ i) : (s.setReg i n).reg j = s.reg j := by
  have : ¬ i.val = j.val := fun e => h (Fin.ext e.symm)
  simp [State.reg, State.setReg, Vector.get_eq_getElem, this]

@[simp] theorem setReg_pc (i n) : (s.setReg i n).pc = s.pc := rfl
@[simp] theorem setReg_mem (i n) : (s.setReg i n).mem = s.mem := rfl
@[simp] theorem setReg_plen (i n) : (s.setReg i n).plen = s.plen := rfl
@[simp] theorem setReg_status (i n) : (s.setReg i n).status = s.status := rfl
@[simp] theorem setReg_fault (i n) : (s.setReg i n).fault = s.fault := rfl
@[simp] theorem setReg_steps (i n) : (s.setReg i n).steps = s.steps := rfl
@[simp] theorem setReg_out (i n) : (s.setReg i n).out = s.out := rfl

/-! ## store -/

@[simp] theorem store_mem (a w) : (s.store a w).mem = memWrite s.mem a w := rfl
@[simp] theorem store_reg (a w i) : (s.store a w).reg i = s.reg i := rfl
@[simp] theorem store_pc (a w) : (s.store a w).pc = s.pc := rfl
@[simp] theorem store_plen (a w) : (s.store a w).plen = s.plen := rfl
@[simp] theorem store_status (a w) : (s.store a w).status = s.status := rfl
@[simp] theorem store_fault (a w) : (s.store a w).fault = s.fault := rfl
@[simp] theorem store_steps (a w) : (s.store a w).steps = s.steps := rfl
@[simp] theorem store_out (a w) : (s.store a w).out = s.out := rfl

/-! ## advance -/

@[simp] theorem advance_pc : s.advance.pc = s.pc + 1 := rfl
@[simp] theorem advance_reg (i) : s.advance.reg i = s.reg i := rfl
@[simp] theorem advance_mem : s.advance.mem = s.mem := rfl
@[simp] theorem advance_plen : s.advance.plen = s.plen := rfl
@[simp] theorem advance_status : s.advance.status = s.status := rfl
@[simp] theorem advance_fault : s.advance.fault = s.fault := rfl
@[simp] theorem advance_steps : s.advance.steps = s.steps := rfl
@[simp] theorem advance_out : s.advance.out = s.out := rfl

/-- From the values a step is executed at, `pc + 1` does not wrap (R24). -/
theorem advance_pc_toNat (h : s.pc.toNat < 256) : s.advance.pc.toNat = s.pc.toNat + 1 := by
  rw [advance_pc, BitVec.toNat_add]
  simp
  omega

/-! ## jumpTo -/

@[simp] theorem jumpTo_pc (t) : (s.jumpTo t).pc = t.setWidth 9 := rfl
@[simp] theorem jumpTo_reg (t i) : (s.jumpTo t).reg i = s.reg i := rfl
@[simp] theorem jumpTo_mem (t) : (s.jumpTo t).mem = s.mem := rfl
@[simp] theorem jumpTo_plen (t) : (s.jumpTo t).plen = s.plen := rfl
@[simp] theorem jumpTo_status (t) : (s.jumpTo t).status = s.status := rfl
@[simp] theorem jumpTo_fault (t) : (s.jumpTo t).fault = s.fault := rfl
@[simp] theorem jumpTo_steps (t) : (s.jumpTo t).steps = s.steps := rfl
@[simp] theorem jumpTo_out (t) : (s.jumpTo t).out = s.out := rfl

/-- A target byte is the new `pc` as it is. -/
theorem jumpTo_pc_toNat (t : Byte) : (s.jumpTo t).pc.toNat = t.toNat := by
  have := t.isLt
  simp
  omega

/-! ## print, halt -/

@[simp] theorem print_out (v) : (s.print v).out = s.out ++ [v] := rfl
@[simp] theorem print_reg (v i) : (s.print v).reg i = s.reg i := rfl
@[simp] theorem print_pc (v) : (s.print v).pc = s.pc := rfl
@[simp] theorem print_mem (v) : (s.print v).mem = s.mem := rfl
@[simp] theorem print_plen (v) : (s.print v).plen = s.plen := rfl
@[simp] theorem print_status (v) : (s.print v).status = s.status := rfl
@[simp] theorem print_fault (v) : (s.print v).fault = s.fault := rfl
@[simp] theorem print_steps (v) : (s.print v).steps = s.steps := rfl

@[simp] theorem halt_status : s.halt.status = .halted := rfl
@[simp] theorem halt_reg (i) : s.halt.reg i = s.reg i := rfl
@[simp] theorem halt_pc : s.halt.pc = s.pc := rfl
@[simp] theorem halt_mem : s.halt.mem = s.mem := rfl
@[simp] theorem halt_plen : s.halt.plen = s.plen := rfl
@[simp] theorem halt_fault : s.halt.fault = s.fault := rfl
@[simp] theorem halt_steps : s.halt.steps = s.steps := rfl
@[simp] theorem halt_out : s.halt.out = s.out := rfl

/-! ## takeFault -/

@[simp] theorem takeFault_status (k w) : (s.takeFault k w).status = .faulted := rfl
@[simp] theorem takeFault_fault (k w) : (s.takeFault k w).fault = some ⟨k, s.pc, w⟩ := rfl
@[simp] theorem takeFault_reg (k w i) : (s.takeFault k w).reg i = s.reg i := rfl
@[simp] theorem takeFault_pc (k w) : (s.takeFault k w).pc = s.pc := rfl
@[simp] theorem takeFault_mem (k w) : (s.takeFault k w).mem = s.mem := rfl
@[simp] theorem takeFault_plen (k w) : (s.takeFault k w).plen = s.plen := rfl
@[simp] theorem takeFault_steps (k w) : (s.takeFault k w).steps = s.steps := rfl
@[simp] theorem takeFault_out (k w) : (s.takeFault k w).out = s.out := rfl
@[simp] theorem takeFault_fetchedWord (k w) : (s.takeFault k w).fetchedWord = s.fetchedWord := rfl

/-- The fetched word, where `pc` is in the fetch range. -/
theorem fetchedWord_of_lt (h : s.pc.toNat < Config.ramLen) : s.fetchedWord = some (s.load s.pc.toNat) := if_pos h

/-- Every register of the reset state is 0. -/
@[simp] theorem reset_reg (i : RegIdx) : State.reset.reg i = 0 := by
  simp [State.reg, State.reset, Vector.get_eq_getElem]

end Sys2Proof.Laws
end

