-- ==== Sys2Proof/Laws/Operands.lean ====
section
/-! SUPPORT. What each operand form can do, said once. -/

namespace Sys2Proof.Laws

open Sys2Proof.Machine

variable {s t : State}

theorem withReg_of_lt {b : Byte} (h : b.toNat < Config.numReg) (k : RegIdx → Outcome) :
    withReg b s k = k ⟨b.toNat, h⟩ := dif_pos h

theorem withReg_of_not_lt {b : Byte} (h : ¬ b.toNat < Config.numReg) (k : RegIdx → Outcome) :
    withReg b s k = raise .registerIndexOutOfRange s := dif_neg h

/-- A register operand goes on with its index, or the fault is taken. -/
theorem withReg_next {b : Byte} {k : RegIdx → Outcome} (h : withReg b s k = .next t) :
    (∃ hb : b.toNat < Config.numReg, k ⟨b.toNat, hb⟩ = .next t) ∨
      (Config.numReg ≤ b.toNat ∧ t = s.takeFault .registerIndexOutOfRange s.fetchedWord) := by
  by_cases hb : b.toNat < Config.numReg
  · exact .inl ⟨hb, by rwa [withReg_of_lt hb] at h⟩
  · rw [withReg_of_not_lt hb] at h
    exact .inr ⟨Nat.not_lt.mp hb, by cases h; rfl⟩

/-- The address check never fails for a byte (R44). -/
@[simp] theorem withAddr_eq (a : Byte) (k : Nat → Outcome) : withAddr a s k = k a.toNat := if_pos a.isLt

theorem takeJump_of_lt {a : Byte} (h : a.toNat < s.plen.toNat) : takeJump a s = .next (s.jumpTo a) := if_pos h

theorem takeJump_of_not_lt {a : Byte} (h : ¬ a.toNat < s.plen.toNat) :
    takeJump a s = raise .jumpTargetOutOfRange s := if_neg h

/-- A taken jump sets `pc` to a target inside the program domain, or the fault is taken. -/
theorem takeJump_next {a : Byte} (h : takeJump a s = .next t) :
    (a.toNat < s.plen.toNat ∧ t = s.jumpTo a) ∨
      (s.plen.toNat ≤ a.toNat ∧ t = s.takeFault .jumpTargetOutOfRange s.fetchedWord) := by
  by_cases ha : a.toNat < s.plen.toNat
  · rw [takeJump_of_lt ha] at h
    exact .inl ⟨ha, by cases h; rfl⟩
  · rw [takeJump_of_not_lt ha] at h
    exact .inr ⟨Nat.not_lt.mp ha, by cases h; rfl⟩

/-- `finish` answers the advanced state and nothing else. -/
@[simp] theorem finish_next : finish s = .next t ↔ t = s.advance :=
  ⟨fun h => by cases h; rfl, fun h => by rw [h]; rfl⟩

@[simp] theorem raise_eq (k : FaultKind) : raise k s = .next (s.takeFault k s.fetchedWord) := rfl

/-- The legality of a register byte, as a proposition. -/
theorem regByteOk_iff {b : Byte} : regByteOk b = true ↔ b.toNat < Config.numReg := by
  simp [regByteOk]

end Sys2Proof.Laws
end

