-- ==== Sys2Proof/Laws/Exec.lean ====
section
/-! SUPPORT. What a handler, a step and an iteration of the run loop can do, said once: later proofs take these
cases apart and do not unfold the machine. -/

namespace Sys2Proof.Laws

open Sys2Proof.Machine

variable {s t : State}

/-- Everything the handler of `i` can do to the state, with what `i` is then. -/
inductive Effect (i : Instr) (s : State) : State → Prop where
  /-- A bad register byte. -/
  | badRegister (h : i.wellFormed = false) : Effect i s (s.takeFault .registerIndexOutOfRange s.fetchedWord)
  /-- A taken jump to a target outside the program domain. -/
  | badTarget (a : Byte) (ha : jumpTarget i = some a) (h : s.plen.toNat ≤ a.toNat) :
      Effect i s (s.takeFault .jumpTargetOutOfRange s.fetchedWord)
  /-- A taken jump. -/
  | jump (a : Byte) (ha : jumpTarget i = some a) (h : a.toNat < s.plen.toNat) : Effect i s (s.jumpTo a)
  /-- `nop`, and a conditional jump not taken. -/
  | fall (h : i = .nop ∨ ∃ a, jumpTarget i = some a) : Effect i s s.advance
  /-- `hlt`. -/
  | halt (h : i = .hlt) : Effect i s s.halt.advance
  /-- A register written with another register's value, or with a value of the range of R21. -/
  | writeReg (d : RegIdx) (n : Int) (hd : ∃ b, destination i = some b ∧ b.toNat = d.val)
      (h : (∃ j, n = s.reg j) ∨ (-128 ≤ n ∧ n < 2 ^ 32)) : Effect i s (s.setReg d n).advance
  /-- A word stored to a cell of memory. -/
  | write (a r : Byte) (hi : i = .stm a r) (w : Word) : Effect i s (s.store a.toNat w).advance
  /-- A register printed. -/
  | printReg (r : Byte) (hi : i = .prr r) (h : r.toNat < Config.numReg) :
      Effect i s (s.print (s.reg ⟨r.toNat, h⟩)).advance
  /-- A word printed. -/
  | printWord (a : Byte) (hi : i = .prm a) : Effect i s (s.print (s.load a.toNat).toNat).advance

variable {i : Instr} {op : OpcodeMap}

theorem takeJump_effect {a : Byte} (hi : jumpTarget i = some a) (h : takeJump a s = .next t) : Effect i s t := by
  obtain ⟨ha, rfl⟩ | ⟨ha, rfl⟩ := takeJump_next h
  · exact .jump a hi ha
  · exact .badTarget a hi ha

/-- Where a byte of `i` names a register, the handler goes on with the register or `i` is ill-formed. -/
theorem withReg_effect {b : Byte} {k : RegIdx → Outcome} (hi : regByteOk b = false → i.wellFormed = false)
    (hk : ∀ hb : b.toNat < Config.numReg, k ⟨b.toNat, hb⟩ = .next t → Effect i s t)
    (h : withReg b s k = .next t) : Effect i s t := by
  obtain ⟨hb, h⟩ | ⟨hb, rfl⟩ := withReg_next h
  · exact hk hb h
  · exact .badRegister (hi (by simpa [regByteOk] using hb))

theorem finish_effect {u : State} (hu : Effect i s u.advance) (h : finish u = .next t) : Effect i s t := by
  rw [finish_next.mp h]
  exact hu

theorem truthValue_range (p : Bool) : -128 ≤ truthValue p ∧ truthValue p < 2 ^ 32 := by
  cases p <;> decide

theorem emod_sizeLim_range (n : Int) : -128 ≤ emod n Config.sizeLim ∧ emod n Config.sizeLim < 2 ^ 32 := by
  have h0 := emod_nonneg n (m := Config.sizeLim) (by decide)
  have h1 := emod_lt n (m := Config.sizeLim) (by decide)
  simp only [Config.sizeLim] at *
  omega

/-- The three-register form: each bad byte makes the instruction ill-formed, and the end writes the destination. -/
theorem threeRegs_effect {rd ra rb : Byte} {f : RegIdx → RegIdx → Int}
    (hi : i.wellFormed = (regByteOk rd && regByteOk ra && regByteOk rb)) (hd : destination i = some rd)
    (hf : ∀ j k, -128 ≤ f j k ∧ f j k < 2 ^ 32)
    (h : (withReg rd s fun d => withReg ra s fun j => withReg rb s fun k => finish (s.setReg d (f j k))) = .next t) :
    Effect i s t :=
  withReg_effect (fun e => by simp [hi, e]) (fun _ h => withReg_effect (fun e => by simp [hi, e])
    (fun _ h => withReg_effect (fun e => by simp [hi, e])
      (fun _ h => finish_effect (.writeReg _ _ ⟨rd, hd, rfl⟩ (.inr (hf _ _))) h) h) h) h

/-- A handler that answers a next state did one of its effects. -/
theorem exec_effect (h : exec i s = .next t) : Effect i s t := by
  cases i with
  | hlt => exact finish_effect (.halt rfl) h
  | nop => exact finish_effect (.fall (.inl rfl)) h
  | ldi r v =>
    simp only [exec, execLdi] at h
    refine withReg_effect id (fun _ h => finish_effect (.writeReg _ _ ⟨r, rfl, rfl⟩ (.inr ?_)) h) h
    have := sext8_range v
    simp only [immediate]
    omega
  | mov rd rs =>
    simp only [exec, execMov] at h
    exact withReg_effect (fun e => by simp [Instr.wellFormed, e]) (fun _ h =>
      withReg_effect (fun e => by simp [Instr.wellFormed, e])
        (fun _ h => finish_effect (.writeReg _ _ ⟨rd, rfl, rfl⟩ (.inl ⟨_, rfl⟩)) h) h) h
  | ldm r a =>
    simp only [exec, execLdm, withAddr_eq] at h
    refine withReg_effect id (fun _ h => finish_effect (.writeReg _ _ ⟨r, rfl, rfl⟩ (.inr ?_)) h) h
    have := (s.load a.toNat).isLt
    omega
  | stm a r =>
    simp only [exec, execStm, withAddr_eq] at h
    exact withReg_effect id (fun _ h => finish_effect (.write a r rfl _) h) h
  | add rd ra rb =>
    simp only [exec, execAdd] at h
    exact threeRegs_effect rfl rfl (fun _ _ => emod_sizeLim_range _) h
  | sub rd ra rb =>
    simp only [exec, execSub] at h
    exact threeRegs_effect rfl rfl (fun _ _ => emod_sizeLim_range _) h
  | eq rd ra rb =>
    simp only [exec, execEq] at h
    exact threeRegs_effect rfl rfl (fun _ _ => truthValue_range _) h
  | lt rd ra rb =>
    simp only [exec, execLt] at h
    exact threeRegs_effect rfl rfl (fun _ _ => truthValue_range _) h
  | jmp a =>
    simp only [exec, execJmp] at h
    exact takeJump_effect rfl h
  | jz r a =>
    simp only [exec, execJz] at h
    refine withReg_effect id (fun _ h => ?_) h
    split at h
    · exact takeJump_effect rfl h
    · exact finish_effect (.fall (.inr ⟨a, rfl⟩)) h
  | jnz r a =>
    simp only [exec, execJnz] at h
    refine withReg_effect id (fun _ h => ?_) h
    split at h
    · exact finish_effect (.fall (.inr ⟨a, rfl⟩)) h
    · exact takeJump_effect rfl h
  | prr r =>
    simp only [exec, execPrr] at h
    exact withReg_effect id (fun hb h => finish_effect (.printReg r rfl hb) h) h
  | prm a =>
    simp only [exec, execPrm, withAddr_eq] at h
    exact finish_effect (.printWord a rfl) h

/-! ## The step -/

/-- A step answers what its instruction's handler answers, or takes one of the two faults before dispatch. -/
theorem coreStep_cases (op : OpcodeMap) (s : State) :
    (∃ i, s.runs op i ∧ coreStep op s = exec i s) ∨
      (s.pc.toNat < Config.ramLen ∧ (∃ e, decodeWith op (s.load s.pc.toNat) = .error e) ∧
        coreStep op s = .next (s.takeFault .unknownOpcode (some (s.load s.pc.toNat)))) ∨
      (Config.ramLen ≤ s.pc.toNat ∧ coreStep op s = .next (s.takeFault .instructionPointerOutOfRange none)) := by
  unfold coreStep
  split
  · rename_i hpc
    cases hd : decodeWith op (s.load s.pc.toNat) with
    | ok i => exact .inl ⟨i, ⟨hpc, hd⟩, rfl⟩
    | error e => exact .inr (.inl ⟨hpc, ⟨e, rfl⟩, by rw [raise_eq, fetchedWord_of_lt s hpc]⟩)
  · rename_i hpc
    exact .inr (.inr ⟨Nat.not_lt.mp hpc, rfl⟩)

/-- A stopped machine makes no iteration. -/
theorem runIteration_next_running {b : Option Nat} (h : runIteration op b s = .next t) : s.status = .running := by
  unfold runIteration at h
  cases hs : s.status <;> simp_all

/-- An iteration finds the budget reached, or makes a step and counts it. -/
theorem runIteration_of_running (op : OpcodeMap) (b : Option Nat) (h : s.status = .running) :
    runIteration op b s =
      if b = some s.steps then .next (s.takeFault .stepBudgetExceeded none) else countStep (coreStep op s) := by
  simp only [runIteration, h]

/-- What a counted step answers comes from an uncounted one. -/
theorem countStep_next {o : Outcome} (h : countStep o = .next t) :
    ∃ u, o = .next u ∧ t = if u.status = .faulted then u else { u with steps := u.steps + 1 } := by
  cases o with
  | next u => exact ⟨u, rfl, by simpa [countStep] using h.symm⟩
  | fault f => simp [countStep] at h
  | refused r => simp [countStep] at h

/-- The step on a running machine is one step of R108, counted. -/
theorem stepWith_of_running (op : OpcodeMap) (h : s.status = .running) :
    stepWith op s = countStep (coreStep op s) := by
  simp [stepWith, runIteration_of_running op none h]

/-- The host's step is the step under the default map. -/
theorem step_eq_stepWith (s : State) : step s = stepWith defaultOpcode s := rfl

/-- A step that answers a next state was made by a running machine, and counts what R108 answers. -/
theorem stepWith_next (h : stepWith op s = .next t) :
    s.status = .running ∧ ∃ u, coreStep op s = .next u ∧
      t = if u.status = .faulted then u else { u with steps := u.steps + 1 } := by
  have hr := runIteration_next_running h
  rw [stepWith_of_running op hr] at h
  exact ⟨hr, countStep_next h⟩

end Sys2Proof.Laws
end

