-- ==== Sys2Proof/Laws/PerInstr.lean ====
section
/-! SUPPORT. The families of statements made per instruction. -/

namespace Sys2Proof.Laws.SlotsSelect

/-- The mnemonic and slot bytes of an instruction select that instruction again: no operand is dropped. -/
def Statement (i : Instr) : Prop := selectInstr i.mnemonic i.slots.1 i.slots.2.1 i.slots.2.2 = i

theorem hlt : Statement .hlt := rfl
theorem nop : Statement .nop := rfl
theorem ldi (r v : Byte) : Statement (.ldi r v) := rfl
theorem mov (rd rs : Byte) : Statement (.mov rd rs) := rfl
theorem ldm (r a : Byte) : Statement (.ldm r a) := rfl
theorem stm (a r : Byte) : Statement (.stm a r) := rfl
theorem add (rd ra rb : Byte) : Statement (.add rd ra rb) := rfl
theorem sub (rd ra rb : Byte) : Statement (.sub rd ra rb) := rfl
theorem eq (rd ra rb : Byte) : Statement (.eq rd ra rb) := rfl
theorem lt (rd ra rb : Byte) : Statement (.lt rd ra rb) := rfl
theorem jmp (a : Byte) : Statement (.jmp a) := rfl
theorem jz (r a : Byte) : Statement (.jz r a) := rfl
theorem jnz (r a : Byte) : Statement (.jnz r a) := rfl
theorem prr (r : Byte) : Statement (.prr r) := rfl
theorem prm (a : Byte) : Statement (.prm a) := rfl

end Sys2Proof.Laws.SlotsSelect
end

