-- ==== Sys2Proof/Tests/Slice0.lean ====
section
/-! SUPPORT. The author's own tests: the well-formedness smoke, the decoding of one word for each instruction, one or
two steps of each instruction, and for each statement with hypotheses a witness that meets them. The words and the
expected results are the worked examples S1 to S10 and the vectors V1 to V8 of 95_test_vectors.md; where a test is
none of them, its docstring says from which rule the result was worked out by hand. -/

namespace Sys2Proof.Tests

open Sys2Proof Sys2Proof.Machine

/-! ## Helpers -/

/-- A running machine at `pc` under program length `plen`, with some cells and some registers set. -/
def bench (pc plen : Nat) (cells : List (Nat × Word)) (regs : List (RegIdx × Int)) : State :=
  regs.foldl (fun s r => s.setReg r.1 r.2)
    (cells.foldl (fun s c => s.store c.1 c.2)
      { State.reset with pc := BitVec.ofNat 9 pc, plen := BitVec.ofNat 8 plen })

/-- The outcome is a next state with the property. -/
def nextWith (o : Machine.Outcome) (p : State → Bool) : Bool :=
  match o with
  | .next t => p t
  | .fault _ => false
  | .refused _ => false

/-- The run halted in a state with the property. -/
def haltedWith (o : RunOutcome) (p : State → Bool) : Bool :=
  match o with
  | .halted t => p t
  | .faulted _ => false
  | .unfinished _ => false
  | .notEnabled _ => false

/-- The run faulted in a state with the property. -/
def faultedWith (o : RunOutcome) (p : State → Bool) : Bool :=
  match o with
  | .faulted t => p t
  | .halted _ => false
  | .unfinished _ => false
  | .notEnabled _ => false

theorem exists_of_nextWith {o : Machine.Outcome} {p : State → Bool} (h : nextWith o p = true) :
    ∃ t, o = .next t ∧ p t = true := by
  cases o with
  | next t => exact ⟨t, rfl, h⟩
  | fault _ => cases h
  | refused _ => cases h

theorem exists_of_haltedWith {o : RunOutcome} {p : State → Bool} (h : haltedWith o p = true) :
    ∃ t, o = .halted t ∧ p t = true := by
  cases o with
  | halted t => exact ⟨t, rfl, h⟩
  | faulted _ => cases h
  | unfinished _ => cases h
  | notEnabled _ => cases h

theorem exists_of_faultedWith {o : RunOutcome} {p : State → Bool} (h : faultedWith o p = true) :
    ∃ t, o = .faulted t ∧ p t = true := by
  cases o with
  | faulted t => exact ⟨t, rfl, h⟩
  | halted _ => cases h
  | unfinished _ => cases h
  | notEnabled _ => cases h

/-- The record of a fault of kind `k` at `pc` with the word. -/
def recordIs (t : State) (k : FaultKind) (pc : Nat) (w : Option Word) : Bool :=
  decide (t.status = .faulted) && decide (t.fault = some ⟨k, BitVec.ofNat 9 pc, w⟩) && decide (t.pc.toNat = pc)


/-! ## WellFormed: an ill-formed term for each check (R65) -/

theorem test_illFormed_ldi_r : Instr.wellFormed (.ldi 8 0) = false := by decide
theorem test_illFormed_mov_rd : Instr.wellFormed (.mov 8 0) = false := by decide
theorem test_illFormed_mov_rs : Instr.wellFormed (.mov 0 255) = false := by decide
theorem test_illFormed_ldm_r : Instr.wellFormed (.ldm 8 0) = false := by decide
theorem test_illFormed_stm_r : Instr.wellFormed (.stm 0 8) = false := by decide
theorem test_illFormed_add_rd : Instr.wellFormed (.add 8 0 0) = false := by decide
theorem test_illFormed_add_ra : Instr.wellFormed (.add 0 9 0) = false := by decide
theorem test_illFormed_add_rb : Instr.wellFormed (.add 0 0 8) = false := by decide
theorem test_illFormed_sub_rd : Instr.wellFormed (.sub 8 0 0) = false := by decide
theorem test_illFormed_sub_ra : Instr.wellFormed (.sub 0 9 0) = false := by decide
theorem test_illFormed_sub_rb : Instr.wellFormed (.sub 0 0 8) = false := by decide
theorem test_illFormed_eq_rd : Instr.wellFormed (.eq 8 0 0) = false := by decide
theorem test_illFormed_eq_ra : Instr.wellFormed (.eq 0 9 0) = false := by decide
theorem test_illFormed_eq_rb : Instr.wellFormed (.eq 0 0 8) = false := by decide
theorem test_illFormed_lt_rd : Instr.wellFormed (.lt 8 0 0) = false := by decide
theorem test_illFormed_lt_ra : Instr.wellFormed (.lt 0 9 0) = false := by decide
theorem test_illFormed_lt_rb : Instr.wellFormed (.lt 0 0 8) = false := by decide
theorem test_illFormed_jz_r : Instr.wellFormed (.jz 9 200) = false := by decide
theorem test_illFormed_jnz_r : Instr.wellFormed (.jnz 8 0) = false := by decide
theorem test_illFormed_prr_r : Instr.wellFormed (.prr 8) = false := by decide

/-- 7 is the last register, and immediates and addresses have no bad byte (R65 to R67). -/
theorem test_wellFormed_boundary :
    ([.hlt, .nop, .ldi 7 255, .mov 7 7, .ldm 7 255, .stm 255 7, .add 7 7 7, .sub 7 7 7, .eq 7 7 7, .lt 7 7 7, .jmp 255,
      .jz 7 255, .jnz 7 255, .prr 7, .prm 255] : List Instr).all Instr.wellFormed = true := by decide

/-! ## Decoding: the words of 95_test_vectors.md S1, and the encoder gives them back -/

theorem test_decode_hlt : decode 0x00000001 = .ok (.hlt) ∧ encode (.hlt) = 0x00000001 := by decide
theorem test_decode_nop : decode 0x00000002 = .ok (.nop) ∧ encode (.nop) = 0x00000002 := by decide
theorem test_decode_ldi : decode 0x00800703 = .ok (.ldi 7 0x80) ∧ encode (.ldi 7 0x80) = 0x00800703 := by decide
theorem test_decode_mov : decode 0x00060104 = .ok (.mov 1 6) ∧ encode (.mov 1 6) = 0x00060104 := by decide
theorem test_decode_ldm : decode 0x00ff0205 = .ok (.ldm 2 255) ∧ encode (.ldm 2 255) = 0x00ff0205 := by decide
theorem test_decode_stm : decode 0x0007ff06 = .ok (.stm 255 7) ∧ encode (.stm 255 7) = 0x0007ff06 := by decide
theorem test_decode_add : decode 0x01000207 = .ok (.add 2 0 1) ∧ encode (.add 2 0 1) = 0x01000207 := by decide
theorem test_decode_sub : decode 0x05040308 = .ok (.sub 3 4 5) ∧ encode (.sub 3 4 5) = 0x05040308 := by decide
theorem test_decode_eq : decode 0x00070609 = .ok (.eq 6 7 0) ∧ encode (.eq 6 7 0) = 0x00070609 := by decide
theorem test_decode_lt : decode 0x0302010a = .ok (.lt 1 2 3) ∧ encode (.lt 1 2 3) = 0x0302010a := by decide
theorem test_decode_jmp : decode 0x0000040b = .ok (.jmp 4) ∧ encode (.jmp 4) = 0x0000040b := by decide
theorem test_decode_jz : decode 0x0003000c = .ok (.jz 0 3) ∧ encode (.jz 0 3) = 0x0003000c := by decide
theorem test_decode_jnz : decode 0x00c8050d = .ok (.jnz 5 200) ∧ encode (.jnz 5 200) = 0x00c8050d := by decide
theorem test_decode_prr : decode 0x0000020e = .ok (.prr 2) ∧ encode (.prr 2) = 0x0000020e := by decide
theorem test_decode_prm : decode 0x0000140f = .ok (.prm 20) ∧ encode (.prm 20) = 0x0000140f := by decide

/-- S9: the low byte 0xff, 0x10 or 0 is no instruction, whatever the upper bytes. -/
theorem test_decode_rejects :
    decode 0x000000ff = .error (.unknownOpcode 0xff) ∧ decode 0x12345610 = .error (.unknownOpcode 0x10) ∧
      decode 0 = .error (.unknownOpcode 0) := by decide

/-- The words of V8.17: unused slots are ignored. -/
theorem test_decode_unused_slots :
    decode 0xabcd0002 = .ok .nop ∧ decode 0x11050203 = .ok (.ldi 2 5) ∧ decode 0xff00020e = .ok (.prr 2) ∧
      decode 0xabcdef01 = .ok .hlt := by decide

/-- The table's numbering: the word of `sub` in 32 bits, and a row of one byte whose operand bytes are zero. -/
theorem test_decodeTableWord :
    decodeTableWord 32 0x05040308 = some (.sub 3 4 5) ∧ decodeTableWord 8 7 = some (.add 0 0 0) ∧
      decodeTableWord 32 0 = none := by decide

/-! ## One step of each instruction -/

/-- V1.4, D5. -/
theorem test_hlt :
    nextWith (step (bench 0 1 [(0, 0xabcdef01)] []))
      (fun t => decide (t.pc = 1 ∧ t.status = .halted ∧ t.steps = 1)) = true := by decide

/-- V1.3. -/
theorem test_hlt_at_255 :
    nextWith (step (bench 255 255 [(255, 0x00000001)] []))
      (fun t => decide (t.pc = 256 ∧ t.status = .halted ∧ t.fault = none)) = true := by decide

/-- V1.7. -/
theorem test_nop_at_255 :
    nextWith (step (bench 255 255 [(255, 0x00000002)] []))
      (fun t => decide (t.pc = 256 ∧ t.status = .running)) = true := by decide

/-- V1.6. -/
theorem test_nop :
    nextWith (step (bench 0 1 [(0, 0xabcd0002)] [(3, 4)]))
      (fun t => decide (t.pc = 1 ∧ t.reg 3 = 4 ∧ t.steps = 1)) = true := by decide

/-- V2.4. -/
theorem test_ldi_least :
    nextWith (step (bench 0 1 [(0, 0x00800703)] []))
      (fun t => decide (t.reg 7 = -128 ∧ t.pc = 1)) = true := by decide

/-- V2.8. -/
theorem test_ldi_bad_register :
    nextWith (step (bench 0 1 [(0, 0x00000803)] []))
      (fun t => recordIs t .registerIndexOutOfRange 0 (some 0x00000803)) = true := by decide

/-- V2.12. -/
theorem test_mov_large :
    nextWith (step (bench 0 1 [(0, 0x00060104)] [(6, 4294967295)]))
      (fun t => decide (t.reg 1 = 4294967295 ∧ t.reg 6 = 4294967295)) = true := by decide

/-- V2.14. -/
theorem test_mov_bad_source :
    nextWith (step (bench 0 1 [(0, 0x00080104)] [(1, 9)]))
      (fun t => recordIs t .registerIndexOutOfRange 0 (some 0x00080104) && decide (t.reg 1 = 9)) = true := by decide

/-- V3.3. -/
theorem test_ldm_unsigned :
    nextWith (step (bench 0 1 [(0, 0x00030005), (3, 0xffffffff)] []))
      (fun t => decide (t.reg 0 = 4294967295)) = true := by decide

/-- V3.5. -/
theorem test_ldm_own_word :
    nextWith (step (bench 0 1 [(0, 0x00000005)] []))
      (fun t => decide (t.reg 0 = 5)) = true := by decide

/-- V3.10. -/
theorem test_stm_negative :
    nextWith (step (bench 0 1 [(0, 0x00001406)] [(0, -128)]))
      (fun t => decide (t.load 20 = 0xffffff80 ∧ t.load 21 = 0 ∧ t.load 0 = 0x00001406 ∧ t.plen = 1)) = true :=
        by decide

/-- V3.12. -/
theorem test_stm_bad_register :
    nextWith (step (bench 0 1 [(0, 0x00080006)] [(1, 9)]))
      (fun t => recordIs t .registerIndexOutOfRange 0 (some 0x00080006) && decide (t.load 0 = 0x00080006)) = true :=
        by decide

/-- V4.7. -/
theorem test_add_negative :
    nextWith (step (bench 0 1 [(0, 0x01000207)] [(0, -1), (1, -128)]))
      (fun t => decide (t.reg 2 = 127 ∧ t.reg 0 = -1)) = true := by decide

/-- V4.16: the sources are read before the write. -/
theorem test_add_same :
    nextWith (step (bench 0 1 [(0, 0x07070707)] [(7, 200)]))
      (fun t => decide (t.reg 7 = 144)) = true := by decide

/-- V4.2. -/
theorem test_sub :
    nextWith (step (bench 0 1 [(0, 0x01000208)] [(0, 250), (1, 10)]))
      (fun t => decide (t.reg 2 = 240)) = true := by decide

/-- V4.3. -/
theorem test_sub_wraps :
    nextWith (step (bench 0 1 [(0, 0x01000208)] [(0, 0), (1, 1)]))
      (fun t => decide (t.reg 2 = 255)) = true := by decide

/-- V5.7: -1 and 255 differ. -/
theorem test_eq_no_mask :
    nextWith (step (bench 0 1 [(0, 0x01000209)] [(0, -1), (1, 255), (2, 7)]))
      (fun t => decide (t.reg 2 = 0)) = true := by decide

/-- V5.1. -/
theorem test_eq_equal :
    nextWith (step (bench 0 1 [(0, 0x01000209)] [(0, 5), (1, 5)]))
      (fun t => decide (t.reg 2 = 1)) = true := by decide

/-- V5.11. -/
theorem test_lt_signed :
    nextWith (step (bench 0 1 [(0, 0x0100020a)] [(0, -1), (1, 4294967295)]))
      (fun t => decide (t.reg 2 = 1)) = true := by decide

/-- V5.6. -/
theorem test_lt_greater :
    nextWith (step (bench 0 1 [(0, 0x0100020a)] [(0, 0), (1, -1), (2, 7)]))
      (fun t => decide (t.reg 2 = 0)) = true := by decide

/-- V6.1. -/
theorem test_jmp_last_target :
    nextWith (step (bench 0 5 [(0, 0x0000040b)] []))
      (fun t => decide (t.pc = 4)) = true := by decide

/-- V6.2. -/
theorem test_jmp_first_bad_target :
    nextWith (step (bench 0 5 [(0, 0x0000050b)] []))
      (fun t => recordIs t .jumpTargetOutOfRange 0 (some 0x0000050b)) = true := by decide

/-- V6.10: the whole cell is tested. -/
theorem test_jz_256 :
    nextWith (step (bench 1 4 [(1, 0x0003000c)] [(0, 256)]))
      (fun t => decide (t.pc = 2)) = true := by decide

/-- V6.7. -/
theorem test_jz_taken :
    nextWith (step (bench 1 4 [(1, 0x0003000c)] []))
      (fun t => decide (t.pc = 3)) = true := by decide

/-- V6.16. -/
theorem test_jnz_taken :
    nextWith (step (bench 4 6 [(4, 0x0002000d)] [(0, -128)]))
      (fun t => decide (t.pc = 2)) = true := by decide

/-- V6.19: not taken, not checked. -/
theorem test_jnz_not_taken :
    nextWith (step (bench 1 3 [(1, 0x00ff000d)] []))
      (fun t => decide (t.pc = 2)) = true := by decide

/-- V7.4. -/
theorem test_prr :
    nextWith (step (bench 0 1 [(0, 0x0000000e)] [(0, 4294967295)]))
      (fun t => decide (t.out = [4294967295] ∧ t.pc = 1)) = true := by decide

/-- V7.6. -/
theorem test_prr_bad_register :
    nextWith (step (bench 0 1 [(0, 0x0000080e)] []))
      (fun t => recordIs t .registerIndexOutOfRange 0 (some 0x0000080e) && decide (t.out = [])) = true := by decide

/-- V7.8. -/
theorem test_prm_unsigned :
    nextWith (step (bench 0 1 [(0, 0x0000140f), (20, 0xffffffff)] []))
      (fun t => decide (t.out = [4294967295])) = true := by decide

/-- V7.10. -/
theorem test_prm_own_word :
    nextWith (step (bench 0 1 [(0, 0x0000000f)] []))
      (fun t => decide (t.out = [15])) = true := by decide

/-- V6.13: the register is checked before the target. -/
theorem test_check_order :
    nextWith (step (bench 0 1 [(0, 0x00c8090c)] []))
      (fun t => recordIs t .registerIndexOutOfRange 0 (some 0x00c8090c)) = true := by decide

/-- V8.4: the opcode is looked at before any operand. -/
theorem test_unknown_opcode :
    nextWith (step (bench 0 1 [(0, 0x09090910)] []))
      (fun t => recordIs t .unknownOpcode 0 (some 0x09090910)) = true := by decide

/-- V8.1: the empty program, which is the reset state. -/
theorem test_reset_step :
    nextWith (step State.reset) (fun t => recordIs t .unknownOpcode 0 (some 0) && decide (t.steps = 0)) = true := by
  decide

/-- V8.7, its last step. -/
theorem test_pc_256 :
    nextWith (step (bench 256 255 [] [])) (fun t => recordIs t .instructionPointerOutOfRange 256 none) = true := by
  decide

/-- V8.10 and V8.11: budget 0 faults before the `hlt`, budget 1 halts. -/
theorem test_budget :
    faultedWith (run defaultOpcode (some 0) 1 (bench 0 1 [(0, 1)] []))
      (fun t => recordIs t .stepBudgetExceeded 0 none) = true ∧
    haltedWith (run defaultOpcode (some 1) 1 (bench 0 1 [(0, 1)] []))
      (fun t => decide (t.pc = 1 ∧ t.steps = 1)) = true := by
  decide

/-- R240 by hand: the words from address 0, zero beyond them, `PLEN` 2. -/
theorem test_load_of_two_words :
    (loadProgram [0x00050003, 0x00000001]).toOption.map (fun s => (s.load 0, s.load 1, s.load 2, s.plen)) =
      some (0x00050003, 0x00000001, 0, 2) := by decide

/-- D15 and G1, by hand: the console text of an integer and the digits of a word. -/
theorem test_text : consoleLines [8, -1, 0] = ["8", "-1", "0"] ∧ wordText 0x0007ff06 = "0007ff06" := by decide

/-- R224, by hand from V2.4: the trace record of one step. -/
theorem test_trace :
    nextWith (step (bench 0 1 [(0, 0x00800703)] []))
      (fun t => decide (traceOf (bench 0 1 [(0, 0x00800703)] []) t = some ⟨0, 3, (7, 0x80, 0), [(7, -128)], 1⟩)) =
      true := by decide

/-- The word that the host places is the one that the next step runs. -/
theorem test_withFetchWord :
    nextWith (step (State.reset.withFetchWord 32 0x00050003)) (fun t => decide (t.reg 0 = 5 ∧ t.pc = 1)) = true := by
  decide

/-! ## Witnesses: for each statement with hypotheses, values that meet them -/

theorem defaultOpcode_legal : defaultOpcode.Legal :=
  ⟨fun a b => by cases a <;> cases b <;> decide, fun m => by cases m <;> decide⟩

/-- Each of the three slots is unused somewhere, and the two ends of the immediates. -/
theorem witness_CanonicalWordIsSumOfBytes :
    (Instr.hlt.mnemonic.format.1 = .unused ∧ (Instr.jmp 4).mnemonic.format.2.1 = .unused ∧
      (Instr.mov 1 6).mnemonic.format.2.2 = .unused) ∧ (-128 : Int) ≤ -128 ∧ (-128 : Int) ≤ 127 ∧ (127 : Int) ≤ 127 ∧
      (immByte (-128)).toNat = 128 ∧ (immByte 127).toNat = 127 := by decide

theorem witness_DecodeOfEncodeRecoversInstruction :
    defaultOpcode.Legal ∧ sext8 (immByte (-128)) = -128 ∧ sext8 (immByte 127) = 127 :=
  ⟨defaultOpcode_legal, by decide, by decide⟩

theorem witness_EncodeOfDecodeIsCanonicalWord :
    decodeWith defaultOpcode 0x11050203 = .ok (.ldi 2 5) ∧ canonicalWord .ldi 0x11050203 = 0x00050203 := by decide

theorem witness_UnusedSlotBytesIgnored :
    defaultOpcode.Legal ∧ opcodeField 0x11050203 = defaultOpcode .ldi ∧
      canonicalWord .ldi 0x11050203 = canonicalWord .ldi 0x00050203 :=
  ⟨defaultOpcode_legal, by decide, by decide⟩

/-- The bytes at the ends of both ranges of the default map: 0 and 16 are rejected, 1 and 15 are not. -/
theorem witness_DecodeRejectsExactlyUnassignedOpcodes :
    defaultOpcode.Legal ∧ opcodeField 0 = 0 ∧ (decode 0).toOption = none ∧ (decode 1).toOption = some .hlt ∧
      (decode 15).toOption = some (.prm 0) ∧ (decode 16).toOption = none :=
  ⟨defaultOpcode_legal, by decide, by decide, by decide, by decide, by decide⟩

/-- A `nop` at 0. -/
abbrev nopState : State := bench 0 1 [(0, 0x00000002)] []

/-- A `hlt` at 0. -/
abbrev hltState : State := bench 0 1 [(0, 0x00000001)] []

/-- A register byte of 8 at 0. -/
abbrev badRegState : State := bench 0 1 [(0, 0x00000803)] []

theorem nopState_runs : nopState.runs defaultOpcode .nop := ⟨by decide, by decide⟩

theorem hltState_runs : hltState.runs defaultOpcode .hlt := ⟨by decide, by decide⟩

/-- One next state that is no fault and one that is. -/
theorem witness_StepRunsTheDecodedInstruction :
    (nopState.status = .running ∧ nopState.runs defaultOpcode .nop ∧
      ∃ t, exec .nop nopState = .next t ∧ decide (t.status = .running) = true) ∧
      (badRegState.status = .running ∧ badRegState.runs defaultOpcode (.ldi 8 0) ∧
        ∃ t, exec (.ldi 8 0) badRegState = .next t ∧ decide (t.status = .faulted) = true) :=
  ⟨⟨by decide, nopState_runs, exists_of_nextWith (by decide)⟩,
    ⟨by decide, ⟨by decide, by decide⟩, exists_of_nextWith (by decide)⟩⟩

/-- A machine of each status. -/
theorem witness_StepEnabledExactlyWhenRunning :
    nopState.status = .running ∧ nextWith (stepWith defaultOpcode nopState) (fun _ => true) = true ∧
      hltState.halt.status ≠ .running ∧
      nextWith (stepWith defaultOpcode hltState.halt) (fun _ => true) = false := by decide

theorem witness_StoppedMachineTakesNoStep :
    hltState.halt.status = .halted ∧ (badRegState.takeFault .registerIndexOutOfRange none).status = .faulted :=
      by decide

/-- The machine that V1.7 leaves: `pc` 256, reached by the `nop` at 255. -/
theorem witness_PcOutsideMemoryFaults :
    ∃ s, stepWith defaultOpcode (bench 255 255 [(255, 0x00000002)] []) = .next s ∧ s.status = .running ∧
      ¬ s.pc.toNat < 256 ∧ s.Inv := by
  obtain ⟨s, hs, h⟩ := exists_of_nextWith (o := stepWith defaultOpcode (bench 255 255 [(255, 0x00000002)] []))
    (p := fun t => decide (t = { bench 256 255 [(255, 0x00000002)] [] with steps := 1 })) (by decide)
  have e := of_decide_eq_true h
  subst e
  exact ⟨_, hs, by decide, by decide, by decide, by decide, by unfold State.regsInRange; decide, by decide⟩

/-- The codes at both ends of the default map, the bytes just outside it, and the last address. -/
theorem witness_DispatchLooksAtOpcodeByteOnly :
    (defaultOpcode.Legal ∧ (bench 255 1 [(255, 0x00000001)] []).status = .running ∧
      (bench 255 1 [(255, 0x00000001)] []).pc.toNat < 256 ∧
      defaultOpcode .hlt = opcodeField ((bench 255 1 [(255, 0x00000001)] []).load 255)) ∧
      defaultOpcode .prm = opcodeField ((bench 0 1 [(0, 0x0000000f)] []).load 0) ∧
      (∀ m, defaultOpcode m ≠ opcodeField (State.reset.load 0)) ∧
      ∀ m, defaultOpcode m ≠ opcodeField ((bench 0 1 [(0, 0x00000010)] []).load 0) :=
  ⟨⟨defaultOpcode_legal, by decide, by decide, by decide⟩, by decide, fun m => by cases m <;> decide,
    fun m => by cases m <;> decide⟩

theorem witness_FaultChangesStatusAndRecordOnly :
    ∃ t, stepWith defaultOpcode badRegState = .next t ∧ decide (t.status = .faulted) = true :=
      exists_of_nextWith (by decide)

/-- A fault whose record holds the word, one without it, and the budget's. -/
theorem witness_FaultRecordHoldsPcAndFetchedWord :
    (∃ t, runIteration defaultOpcode none badRegState = .next t ∧
      recordIs t .registerIndexOutOfRange 0 (some 0x00000803) = true) ∧
      (∃ t, runIteration defaultOpcode none (bench 256 255 [] []) = .next t ∧
        recordIs t .instructionPointerOutOfRange 256 none = true) ∧
      ∃ t, runIteration defaultOpcode (some 0) nopState = .next t ∧ recordIs t .stepBudgetExceeded 0 none = true :=
  ⟨exists_of_nextWith (by decide), exists_of_nextWith (by decide), exists_of_nextWith (by decide)⟩

theorem witness_AddressAndLengthFaultsNeverRecorded :
    ∃ t, runIteration defaultOpcode none badRegState = .next t ∧
      recordIs t .registerIndexOutOfRange 0 (some 0x00000803) = true := exists_of_nextWith (by decide)

/-- Register byte 7 and register byte 8. -/
theorem witness_RegisterFaultExactlyOnBadRegisterByte :
    nopState.status = .running ∧ (Instr.prr 8).wellFormed = false ∧ (Instr.prr 7).wellFormed = true ∧
      nextWith (exec (.prr 8) nopState) (fun t => decide (t.status = .faulted)) = true ∧
      nextWith (exec (.prr 7) nopState) (fun t => decide (t.status = .running)) = true := by decide

/-- A machine at the last address that can be fetched, under `PLEN` 255: what the statements about one instruction
ask of the state. -/
abbrev lastState : State := bench 255 255 [] [(0, 5), (1, -1), (2, 256)]

theorem witness_HltHaltsTheMachine :
    lastState.pc.toNat < 256 ∧ nextWith (exec .hlt lastState) (fun t => decide (t.pc = 256)) = true := by decide

theorem witness_NopOnlyAdvances :
    defaultOpcode.Legal ∧ (bench 255 255 [(255, 2)] []).pc.toNat < 256 ∧
      (bench 255 255 [(255, 2)] []).status = .running ∧ (bench 255 255 [(255, 2)] []).runs defaultOpcode .nop ∧
      (bench 255 255 [(255, 2)] []).pc.toNat = 255 :=
  ⟨defaultOpcode_legal, by decide, by decide, ⟨by decide, by decide⟩, by decide⟩

/-- Both sides of the register bound and of the sign bit. -/
theorem witness_LdiLoadsSignExtendedImmediate :
    lastState.pc.toNat < 256 ∧ (7 : Byte).toNat < 8 ∧ ¬ (8 : Byte).toNat < 8 ∧
      nextWith (exec (.ldi 7 127) lastState) (fun t => decide (t.reg 7 = 127)) = true ∧
      nextWith (exec (.ldi 7 128) lastState) (fun t => decide (t.reg 7 = -128)) = true ∧
      nextWith (exec (.ldi 8 128) lastState) (fun t => decide (t.status = .faulted)) = true := by decide

theorem witness_MovCopiesTheWholeValue :
    lastState.pc.toNat < 256 ∧ nextWith (exec (.mov 7 2) lastState) (fun t => decide (t.reg 7 = 256)) = true ∧
      nextWith (exec (.mov 7 8) lastState) (fun t => decide (t.status = .faulted)) = true ∧
      nextWith (exec (.mov 8 7) lastState) (fun t => decide (t.status = .faulted)) = true := by decide

theorem witness_LdmLoadsTheWordUnsigned :
    lastState.pc.toNat < 256 ∧ nextWith (exec (.ldm 7 255) lastState) (fun t => decide (t.reg 7 = 0)) = true ∧
      nextWith (exec (.ldm 8 255) lastState) (fun t => decide (t.status = .faulted)) = true := by decide

theorem witness_StmStoresTheLowWord :
    lastState.pc.toNat < 256 ∧
      nextWith (exec (.stm 255 1) lastState) (fun t => decide (t.load 255 = 0xffffffff)) = true ∧
      nextWith (exec (.stm 255 8) lastState) (fun t => decide (t.status = .faulted)) = true := by decide

/-- The three bytes of the format one after the other at 8, and all at 7. -/
abbrev threeRegisterClauses (op : Byte → Byte → Byte → Instr) : Bool :=
  nextWith (exec (op 7 7 7) lastState) (fun t => decide (t.status = .running)) &&
    nextWith (exec (op 8 7 7) lastState) (fun t => decide (t.status = .faulted)) &&
    nextWith (exec (op 7 8 7) lastState) (fun t => decide (t.status = .faulted)) &&
    nextWith (exec (op 7 7 8) lastState) (fun t => decide (t.status = .faulted))

theorem witness_AddWrapsModulo256 :
    lastState.pc.toNat < 256 ∧ threeRegisterClauses .add = true ∧
      nextWith (exec (.add 7 1 2) lastState) (fun t => decide (t.reg 7 = 255)) = true := by decide

theorem witness_SubWrapsModulo256 :
    lastState.pc.toNat < 256 ∧ threeRegisterClauses .sub = true ∧
      nextWith (exec (.sub 7 1 0) lastState) (fun t => decide (t.reg 7 = 250)) = true := by decide

theorem witness_EqComparesSignedIntegers :
    lastState.pc.toNat < 256 ∧ threeRegisterClauses .eq = true ∧
      nextWith (exec (.eq 7 1 1) lastState) (fun t => decide (t.reg 7 = 1)) = true ∧
      nextWith (exec (.eq 0 1 2) lastState) (fun t => decide (t.reg 0 = 0)) = true := by decide

theorem witness_LtComparesSignedIntegers :
    lastState.pc.toNat < 256 ∧ threeRegisterClauses .lt = true ∧
      nextWith (exec (.lt 7 1 0) lastState) (fun t => decide (t.reg 7 = 1)) = true ∧
      nextWith (exec (.lt 0 1 1) lastState) (fun t => decide (t.reg 0 = 0)) = true := by decide

/-- The last target inside the program and the first beyond it. -/
theorem witness_JmpGoesInsideTheProgram :
    nextWith (exec (.jmp 254) lastState) (fun t => decide (t.pc = 254)) = true ∧
      nextWith (exec (.jmp 255) lastState) (fun t => decide (t.status = .faulted)) = true := by decide

/-- Taken inside and beyond the program, not taken, and a bad register. -/
theorem witness_JzJumpsOnZero :
    lastState.pc.toNat < 256 ∧ nextWith (exec (.jz 7 254) lastState) (fun t => decide (t.pc = 254)) = true ∧
      nextWith (exec (.jz 7 255) lastState) (fun t => decide (t.status = .faulted)) = true ∧
      nextWith (exec (.jz 2 255) lastState) (fun t => decide (t.pc = 256)) = true ∧
      nextWith (exec (.jz 8 254) lastState) (fun t => decide (t.status = .faulted)) = true := by decide

/-- Not taken, taken inside and beyond the program, and a bad register. -/
theorem witness_JnzJumpsOnNonZero :
    lastState.pc.toNat < 256 ∧ nextWith (exec (.jnz 7 255) lastState) (fun t => decide (t.pc = 256)) = true ∧
      nextWith (exec (.jnz 2 254) lastState) (fun t => decide (t.pc = 254)) = true ∧
      nextWith (exec (.jnz 2 255) lastState) (fun t => decide (t.status = .faulted)) = true ∧
      nextWith (exec (.jnz 8 254) lastState) (fun t => decide (t.status = .faulted)) = true := by decide

theorem witness_PrrAppendsTheRegister :
    lastState.pc.toNat < 256 ∧ nextWith (exec (.prr 7) lastState) (fun t => decide (t.out = [0])) = true ∧
      nextWith (exec (.prr 8) lastState) (fun t => decide (t.status = .faulted)) = true := by decide

theorem witness_PrmAppendsTheUnsignedWord :
    lastState.pc.toNat < 256 ∧ nextWith (exec (.prm 255) lastState) (fun t => decide (t.out = [0])) = true := by decide

/-- -1 against 255, and 256 against 0. -/
theorem witness_AddSubSeeOnlyLowBytes :
    emod (lastState.reg 1) 256 = emod ((bench 0 0 [] [(1, 255)]).reg 1) 256 ∧
      emod (lastState.reg 2) 256 = emod ((bench 0 0 [] [(1, 255)]).reg 2) 256 := by decide

/-- Both signs, and 0 itself. -/
theorem witness_StoreThenLoadGivesUnsignedValue :
    0 ≤ lastState.reg 0 ∧ lastState.reg 1 < 0 ∧ 0 ≤ lastState.reg 7 := by decide

/-- V3.13. -/
theorem witness_StoredWordIsFetchedNext :
    (bench 1 3 [(1, 0x00000206), (2, 2)] [(0, 1)]).status = .running ∧
      (bench 1 3 [(1, 0x00000206), (2, 2)] [(0, 1)]).runs defaultOpcode (.stm 2 (BitVec.ofNat 8 (0 : RegIdx))) ∧
      (2 : Byte).toNat = (bench 1 3 [(1, 0x00000206), (2, 2)] [(0, 1)]).pc.toNat + 1 :=
  ⟨by decide, ⟨by decide, by decide⟩, by decide⟩

/-- Two memories written in two orders. -/
theorem witness_MemoriesThatReadAlikeAreEqual :
    Memory.wf (memWrite (memWrite [] 3 1) 2 5) = true ∧ Memory.wf (memWrite (memWrite [] 2 5) 3 1) = true ∧
      ∀ n, Memory.readByte (memWrite (memWrite [] 3 1) 2 5) n = Memory.readByte (memWrite (memWrite [] 2 5) 3 1) n :=
  ⟨by decide, by decide, fun n => by
    rw [show memWrite (memWrite [] 3 1) 2 5 = memWrite (memWrite [] 2 5) 3 1 by decide]⟩

/-- The least and the largest `PLEN` and the first address from it. -/
theorem witness_JumpBoundIsNotMemoryBound :
    State.reset.plen.toNat ≤ (0 : Byte).toNat ∧ lastState.plen.toNat ≤ (255 : Byte).toNat := by decide

/-- The longest program that fits: its last word and the one cell beyond it. -/
theorem witness_LoadLeavesProgramAndZeroPadding :
    (List.replicate 255 (2 : Word)).length < 256 ∧ 254 < (List.replicate 255 (2 : Word)).length ∧
      (List.replicate 255 (2 : Word)).length ≤ 255 ∧ ([] : List Word).length < 256 := by
  simp only [List.length_replicate, List.length_nil]
  decide

/-- 255 and 256 words: S8. -/
theorem witness_LoadFailsExactlyFrom256Words :
    (List.replicate 255 (2 : Word)).length ≤ 255 ∧ 256 ≤ (List.replicate 256 (2 : Word)).length := by
  simp only [List.length_replicate]
  decide

theorem witness_LoadedStateMeetsTheInvariant :
    ∃ s, loadProgram [0x00000001] = .ok s := ⟨_, rfl⟩

theorem lastState_inv : lastState.Inv :=
  ⟨by decide, by decide, by unfold State.regsInRange; decide, by decide⟩

/-- A step that faults, from the last address. -/
theorem witness_EveryStepKeepsTheInvariant :
    lastState.Inv ∧ ∃ t, step lastState = .next t ∧ decide (t.status = .faulted) = true :=
  ⟨lastState_inv, exists_of_nextWith (by decide)⟩

theorem witness_EveryRunKeepsTheInvariant :
    lastState.Inv ∧ (∃ t, (run defaultOpcode (some 0) 1 lastState).state? = some t) ∧
      ∃ t, (run defaultOpcode none 1 lastState).state? = some t :=
  ⟨lastState_inv, by
    obtain ⟨t, h, _⟩ := exists_of_faultedWith (o := run defaultOpcode (some 0) 1 lastState)
      (p := fun _ => true) (by decide)
    exact ⟨t, by rw [h]; rfl⟩, by
    obtain ⟨t, h, _⟩ := exists_of_faultedWith (o := run defaultOpcode none 1 lastState) (p := fun _ => true) (by decide)
    exact ⟨t, by rw [h]; rfl⟩⟩

/-- A step that faults, one that advances to 256, and a taken jump. -/
theorem witness_PcMovesOnlyByTheRules :
    (∃ t, stepWith defaultOpcode badRegState = .next t ∧ decide (t.status = .faulted) = true) ∧
      (∃ t, stepWith defaultOpcode (bench 255 255 [(255, 2)] []) = .next t ∧ decide (t.status ≠ .faulted) = true) ∧
      ∃ t, stepWith defaultOpcode (bench 0 255 [(0, 0x0000fe0b)] []) = .next t ∧
        decide (t.status ≠ .faulted ∧ t.pc = 254) = true :=
  ⟨exists_of_nextWith (by decide), exists_of_nextWith (by decide), exists_of_nextWith (by decide)⟩

theorem witness_NoRunChangesTheProgramLength :
    ∃ t, (run defaultOpcode none 1 hltState).state? = some t := by
  obtain ⟨t, h, _⟩ := exists_of_haltedWith (o := run defaultOpcode none 1 hltState) (p := fun _ => true) (by decide)
  exact ⟨t, by rw [h]; rfl⟩

/-- `pc` 255 and `pc` 256, and a run that prints before it faults. -/
theorem witness_OutputListsPrintsInOrder :
    (∃ t, stepWith defaultOpcode (bench 255 0 [(255, 0x0000000e)] [(0, 9)]) = .next t ∧ decide (t.out = [9]) = true) ∧
      (∃ t, stepWith defaultOpcode (bench 256 0 [] []) = .next t ∧ decide (t.out = []) = true) ∧
      ∃ t, run defaultOpcode none 2 (bench 255 0 [(255, 0x0000000e)] [(0, 9)]) = .faulted t ∧
        decide (t.out = [9]) = true :=
  ⟨exists_of_nextWith (by decide), exists_of_nextWith (by decide), exists_of_faultedWith (by decide)⟩

theorem witness_HaltedExactlyByHlt :
    (∃ t, stepWith defaultOpcode hltState = .next t ∧ decide (t.status = .halted) = true) ∧
      ∃ t, stepWith defaultOpcode nopState = .next t ∧ decide (t.status ≠ .halted) = true :=
  ⟨exists_of_nextWith (by decide), exists_of_nextWith (by decide)⟩

/-- Budget 0, and a count that stands at the budget. -/
theorem witness_BudgetedRunEnds :
    (nopState.status = .running ∧ nopState.steps ≤ 0 ∧ 0 < nopState.steps + 1) ∧
      ({ nopState with steps := 3 } : State).steps ≤ 3 ∧ 3 < ({ nopState with steps := 3 } : State).steps + 1 := by
  decide

/-- A fault at the budget, a fault before it, and a fault with no budget. -/
theorem witness_BudgetFaultExactlyAtTheBudget :
    (nopState.status = .running ∧ nopState.steps ≤ 0 ∧
      ∃ t, run defaultOpcode (some 0) 1 nopState = .faulted t ∧ decide (t.steps = 0) = true) ∧
      (∃ t, run defaultOpcode (some 1) 1 badRegState = .faulted t ∧ decide (t.steps ≠ 1) = true) ∧
      ∃ t, run defaultOpcode none 1 badRegState = .faulted t ∧
        recordIs t .registerIndexOutOfRange 0 (some 0x00000803) = true :=
  ⟨⟨by decide, by decide, exists_of_faultedWith (by decide)⟩, exists_of_faultedWith (by decide),
    exists_of_faultedWith (by decide)⟩

/-- A halt with the last step of the budget, and a fault one step below it. -/
theorem witness_UnreachedBudgetChangesNothing :
    (hltState.status = .running ∧
        ∃ t, run defaultOpcode none 1 hltState = .halted t ∧ decide (t.steps ≤ 1) = true) ∧
      (badRegState.status = .running ∧ ∃ t, run defaultOpcode none 1 badRegState = .faulted t ∧
        decide (t.steps < 1) = true) :=
  ⟨⟨by decide, exists_of_haltedWith (by decide)⟩, ⟨by decide, exists_of_faultedWith (by decide)⟩⟩

theorem witness_BudgetIsComparedBeforeTheStep :
    hltState.status = .running ∧ hltState.runs defaultOpcode .hlt := ⟨by decide, hltState_runs⟩

/-- The default codes in the opposite order: 15 for `hlt`, 1 for `prm`. -/
abbrev oppositeOpcode : OpcodeMap := fun m => 16 - defaultOpcode m

theorem oppositeOpcode_legal : oppositeOpcode.Legal :=
  ⟨fun a b => by cases a <;> cases b <;> decide, fun m => by cases m <;> decide⟩

/-- Another map than the default one, at the last address. -/
theorem witness_EncodedInstructionRunsUnderEveryMap :
    oppositeOpcode.Legal ∧ (bench 255 1 [(255, 0x0005000d)] []).status = .running ∧
      (bench 255 1 [(255, 0x0005000d)] []).pc.toNat < 256 ∧
      (bench 255 1 [(255, 0x0005000d)] []).load (bench 255 1 [(255, 0x0005000d)] []).pc.toNat =
        encodeWith oppositeOpcode (.ldi 0 5) ∧
      nextWith (stepWith oppositeOpcode (bench 255 1 [(255, 0x0005000d)] [])) (fun t => decide (t.reg 0 = 5)) = true :=
  ⟨oppositeOpcode_legal, by decide, by decide, by decide, by decide⟩

end Sys2Proof.Tests
end

/-! PROOF. The fields of a word as numbers (30_encoding.md R61), the canonical word as a sum of bytes (R73), and
decoding what was encoded (R74). -/

namespace Sys2Proof.Proofs.Encoding

open Sys2Proof.Laws

/-! ## The fields of a word as numbers (R61) -/

/-- Byte `k` of a word as the source writes it: shifted down and masked. -/
theorem toNat_byteOf_shift_mask (k : Nat) (w : Word) :
    (byteOf k w).toNat = w.toNat >>> (k * Config.opShift) &&& Config.opMask := by
  have mask : Config.opMask = 2 ^ 8 - 1 := rfl
  rw [byteOf, BitVec.extractLsb'_toNat, mask, Nat.and_two_pow_sub_one_eq_mod]

/-- Byte `k` of a word as a remainder. -/
theorem toNat_byteOf (k : Nat) (w : Word) : (byteOf k w).toNat = w.toNat / 2 ^ (k * 8) % 256 := by
  rw [byteOf, BitVec.extractLsb'_toNat, Nat.shiftRight_eq_div_pow]

theorem toNat_opcodeField (w : Word) : (opcodeField w).toNat = w.toNat % 256 := by
  rw [opcodeField, toNat_byteOf, Nat.zero_mul, Nat.pow_zero, Nat.div_one]

theorem toNat_arg0 (w : Word) : (arg0 w).toNat = w.toNat / 2 ^ 8 % 256 := toNat_byteOf 1 w

theorem toNat_arg1 (w : Word) : (arg1 w).toNat = w.toNat / 2 ^ 16 % 256 := toNat_byteOf 2 w

theorem toNat_arg2 (w : Word) : (arg2 w).toNat = w.toNat / 2 ^ 24 % 256 := toNat_byteOf 3 w

/-- A word is the sum of its four fields, each at its place: its digits to base 256. -/
theorem toNat_eq_sum_fields (w : Word) :
    w.toNat = (opcodeField w).toNat + (arg0 w).toNat * 2 ^ 8 + (arg1 w).toNat * 2 ^ 16 + (arg2 w).toNat * 2 ^ 24 := by
  have hw : w.toNat < 2 ^ 32 := w.isLt
  rw [toNat_opcodeField, toNat_arg0, toNat_arg1, toNat_arg2]
  omega

/-- A packed word is the sum of its four bytes, since its fields are those bytes. -/
theorem toNat_packWord (op a b c : Byte) :
    (packWord op a b c).toNat = op.toNat + a.toNat * 2 ^ 8 + b.toNat * 2 ^ 16 + c.toNat * 2 ^ 24 := by
  simpa only [opcodeField_packWord, arg0_packWord, arg1_packWord, arg2_packWord] using
    toNat_eq_sum_fields (packWord op a b c)

/-! ## Immediates (R67, R73) -/

/-- The byte of an immediate is its remainder, for every integer. -/
theorem toNat_immByte (v : Int) : ((immByte v).toNat : Int) = emod v 256 := by
  have lo := emod_nonneg v (m := 256) (by decide)
  have hi := emod_lt v (m := 256) (by decide)
  rw [immByte, BitVec.toNat_ofInt]
  omega

/-- The sign extension of an immediate's byte is the immediate: 256 is added to a negative one and taken off
again. -/
theorem sext8_immByte {v : Int} (lo : -128 ≤ v) (hi : v ≤ 127) : sext8 (immByte v) = v := by
  have h : ((immByte v).toNat : Int) = v % 256 := toNat_immByte v
  unfold sext8
  split <;> omega

/-! ## Slots (R64) -/

/-- The slots that the format of an instruction leaves unused hold zero. -/
theorem slots_eq_zero_of_unused (i : Instr) :
    (i.mnemonic.format.1 = .unused → i.slots.1 = 0) ∧ (i.mnemonic.format.2.1 = .unused → i.slots.2.1 = 0) ∧
      (i.mnemonic.format.2.2 = .unused → i.slots.2.2 = 0) := by
  cases i <;> simp [Instr.mnemonic, Mnemonic.format, Instr.slots]

/-- The mnemonic and the slot bytes of an instruction select it again. -/
@[simp] theorem selectInstr_slots (i : Instr) : selectInstr i.mnemonic i.slots.1 i.slots.2.1 i.slots.2.2 = i := by
  cases i <;> rfl

/-! ## The canonical word (R73, R74) -/

section
variable (op : OpcodeMap) (i : Instr)

@[simp] theorem opcodeField_encodeWith : opcodeField (encodeWith op i) = op i.mnemonic := opcodeField_packWord ..

@[simp] theorem arg0_encodeWith : arg0 (encodeWith op i) = i.slots.1 := arg0_packWord ..

@[simp] theorem arg1_encodeWith : arg1 (encodeWith op i) = i.slots.2.1 := arg1_packWord ..

@[simp] theorem arg2_encodeWith : arg2 (encodeWith op i) = i.slots.2.2 := arg2_packWord ..

theorem toNat_encodeWith :
    (encodeWith op i).toNat =
      (op i.mnemonic).toNat + i.slots.1.toNat * 2 ^ 8 + i.slots.2.1.toNat * 2 ^ 16 + i.slots.2.2.toNat * 2 ^ 24 :=
  toNat_packWord ..

end

/-- Where the search finds a mnemonic, the decoder answers the instruction it selects. -/
theorem decodeWith_of_lookup {op : OpcodeMap} {w : Word} {m : Mnemonic} (h : lookupOpcode op (opcodeField w) = some m) :
    decodeWith op w = .ok (selectInstr m (arg0 w) (arg1 w) (arg2 w)) := by
  rw [decodeWith, h]

/-- Distinct codes suffice for the round trip: the search finds the mnemonic that was encoded, and the slots select
its instruction. That no code is 0 plays no part. -/
theorem decodeWith_encodeWith {op : OpcodeMap} (hop : Function.Injective op) (i : Instr) :
    decodeWith op (encodeWith op i) = .ok i := by
  have found : lookupOpcode op (opcodeField (encodeWith op i)) = some i.mnemonic := by
    rw [opcodeField_encodeWith, lookup_code hop]
  rw [decodeWith_of_lookup found, arg0_encodeWith, arg1_encodeWith, arg2_encodeWith, selectInstr_slots]

/-! ## The statements -/

/-- Settles O3: the fields of a packed word are its bytes, and a code is found again under an injective map. -/
theorem decodeOfEncodeRecoversInstruction : Obligations.DecodeOfEncodeRecoversInstruction := by
  intro op ⟨injective, _⟩
  exact ⟨fun i => ⟨opcodeField_encodeWith op i, arg0_encodeWith op i, arg1_encodeWith op i, arg2_encodeWith op i,
    decodeWith_encodeWith injective i⟩, fun _ => sext8_immByte⟩

/-- Settles O1: each field is one byte of the word, and packing the fields gives the word back. -/
theorem wordFieldsAreItsFourBytes : Obligations.WordFieldsAreItsFourBytes := fun w =>
  ⟨toNat_opcodeField w, toNat_arg0 w, toNat_arg1 w, toNat_arg2 w, fun k => toNat_byteOf_shift_mask k w,
    (packWord_fields w).symm⟩

/-- Settles O2: the sum of the four packed bytes, the format table, and the remainder of an immediate. -/
theorem canonicalWordIsSumOfBytes : Obligations.CanonicalWordIsSumOfBytes :=
  ⟨fun op i => ⟨toNat_encodeWith op i, slots_eq_zero_of_unused i⟩, fun o _ _ => toNat_immByte o⟩

end Sys2Proof.Proofs.Encoding

/-! PROOF. The step before dispatch (40_step_cycle.md R101 to R103): the fault of a `pc` outside memory, where `pc` can
come from, and the choice of the handler by the opcode byte. -/

namespace Sys2Proof.Proofs.StepCycle

open Sys2Proof.Laws Sys2Proof.Machine Sys2Proof.Proofs.Encoding

variable {op : OpcodeMap} {s t : State} {i : Instr}

/-! ## Faults before dispatch -/

/-- A fault of R108 is the answer of the whole step: it is not counted. -/
theorem stepWith_of_coreStep_takeFault {k : FaultKind} {w : Option Word} (hs : s.status = .running)
    (h : coreStep op s = .next (s.takeFault k w)) : stepWith op s = .next (s.takeFault k w) := by
  simp [stepWith_of_running op hs, h, countStep]

theorem coreStep_of_pc_outside (h : ¬ s.pc.toNat < Config.ramLen) :
    coreStep op s = .next (s.takeFault .instructionPointerOutOfRange none) := if_neg h

/-- Where the search finds no mnemonic, the step takes `UnknownOpcode` with the word it fetched. -/
theorem coreStep_of_lookup_none (hpc : s.pc.toNat < Config.ramLen)
    (h : lookupOpcode op (opcodeField (s.load s.pc.toNat)) = none) :
    coreStep op s = .next (s.takeFault .unknownOpcode (some (s.load s.pc.toNat))) := by
  have rejected : decodeWith op (s.load s.pc.toNat) = .error (.unknownOpcode (opcodeField (s.load s.pc.toNat))) := by
    rw [decodeWith, h]
  simp [coreStep, hpc, rejected, fetchedWord_of_lt s hpc]

/-! ## Where `pc` goes (R106) -/

/-- A handler faults, jumps to its target, or adds 1 to `pc`. -/
theorem pc_of_effect (h : Effect i s t) :
    t.status = .faulted ∨ (∃ a, jumpTarget i = some a ∧ t.pc.toNat = a.toNat) ∨ t.pc = s.pc + 1 := by
  cases h with
  | badRegister | badTarget => exact .inl rfl
  | jump a ha => exact .inr (.inl ⟨a, ha, jumpTo_pc_toNat s a⟩)
  | fall | halt | writeReg | write | printReg | printWord => exact .inr (.inr rfl)

/-- A step that does not fault is made with `pc` in memory, and leaves it in memory or one further. -/
theorem pc_of_stepWith (h : stepWith op s = .next t) (ht : t.status ≠ .faulted) :
    s.pc.toNat < 256 ∧ (t.pc.toNat < 256 ∨ t.pc.toNat = s.pc.toNat + 1) := by
  obtain ⟨_, u, hu, rfl⟩ := stepWith_next h
  have unfaulted : u.status ≠ .faulted := fun faulted => ht (by rw [if_pos faulted, faulted])
  rw [if_neg unfaulted]
  obtain ⟨i, ⟨hpc, _⟩, hi⟩ | ⟨_, _, hf⟩ | ⟨_, hf⟩ := coreStep_cases op s
  · refine ⟨hpc, ?_⟩
    obtain faulted | ⟨a, _, ha⟩ | hsucc := pc_of_effect (exec_effect (hi.symm.trans hu))
    · exact absurd faulted unfaulted
    · exact .inl (ha ▸ a.isLt)
    · exact .inr (hsucc ▸ advance_pc_toNat s hpc)
  all_goals
    cases hf.symm.trans hu
    exact absurd rfl unfaulted

/-! ## The statements -/

/-- Settles O11: nothing is fetched before the fault, and the invariant bounds `pc` by 256. A running state with
`pc` outside memory was not left by a fault nor by a jump, so `pc` was counted up to it from inside memory. -/
theorem pcOutsideMemoryFaults : Obligations.PcOutsideMemoryFaults := by
  intro op s hs hpc
  refine ⟨stepWith_of_coreStep_takeFault hs (coreStep_of_pc_outside hpc), fun ⟨_, bound, _⟩ => by omega,
    fun r hr => ?_⟩
  have ⟨inside, moved⟩ := pc_of_stepWith hr (by simp [hs])
  omega

/-- Settles O12: under distinct codes the search finds the mnemonic of the code, and where it finds none the step
faults with the word. -/
theorem dispatchLooksAtOpcodeByteOnly : Obligations.DispatchLooksAtOpcodeByteOnly := by
  intro op s ⟨injective, _⟩ hs hpc
  constructor
  · intro m hm
    exact ⟨_, mnemonic_selectInstr .., hpc, decodeWith_of_lookup (hm ▸ lookup_code injective m)⟩
  · intro unassigned
    exact stepWith_of_coreStep_takeFault hs (coreStep_of_lookup_none hpc (lookup_eq_none.mpr unassigned))

end Sys2Proof.Proofs.StepCycle

/-! PROOF. The instructions that take three registers: their canonical word (30_encoding.md R73), their result, frame
and register checks (R65, R104), and `add` and `sub` (44_arithmetic.md R150 to R153). -/

namespace Sys2Proof.Proofs.Arithmetic

open Sys2Proof.Laws Sys2Proof.Machine Sys2Proof.Proofs.Encoding

variable {s : State}

/-! ## The canonical word -/

/-- The operands of any canonical word are its slot bytes, each at its place. -/
theorem encodesAs_slots (i : Instr) :
    EncodesAs i (i.slots.1.toNat * 2 ^ 8 + i.slots.2.1.toNat * 2 ^ 16 + i.slots.2.2.toNat * 2 ^ 24) := fun op => by
  rw [toNat_encodeWith, Nat.add_assoc, Nat.add_assoc, Nat.add_assoc]

/-! ## One register written -/

/-- A value of the range of R21 written to a register, then `pc + 1`: the whole frame. -/
theorem writesReg_setReg_advance (hpc : s.pc.toNat < 256) (d : RegIdx) {n : Int} (hn : -128 ≤ n ∧ n < 2 ^ 32) :
    WritesReg s (s.setReg d n).advance d n :=
  ⟨reg_setReg_same s d (by omega) hn.2, fun _ other => reg_setReg_ne s n other, fun _ => rfl,
    ⟨rfl, rfl, rfl, rfl, rfl⟩, advance_pc_toNat (s.setReg d n) hpc⟩

/-- The three-register form writes its destination with the two sources' result, or takes the fault at the first bad
register byte. The sources are read before the write, so the destination may be one of them. -/
theorem threeRegs_writes_or_faults (hpc : s.pc.toNat < 256) (rd ra rb : Byte) {f : RegIdx → RegIdx → Int}
    (hf : ∀ i j, -128 ≤ f i j ∧ f i j < 2 ^ 32) :
    ∃ t, (withReg rd s fun d => withReg ra s fun i => withReg rb s fun j => finish (s.setReg d (f i j))) = .next t ∧
      if h : rd.toNat < 8 ∧ ra.toNat < 8 ∧ rb.toNat < 8 then
        WritesReg s t (regOf rd h.1) (f (regOf ra h.2.1) (regOf rb h.2.2))
      else Faults s t .registerIndexOutOfRange := by
  by_cases h : rd.toNat < 8 ∧ ra.toNat < 8 ∧ rb.toNat < 8
  · obtain ⟨hd, ha, hb⟩ := h
    refine ⟨(s.setReg (regOf rd hd) (f (regOf ra ha) (regOf rb hb))).advance, ?_, ?_⟩
    · rw [withReg_of_lt hd, withReg_of_lt ha, withReg_of_lt hb, finish]
    · rw [dif_pos ⟨hd, ha, hb⟩]
      exact writesReg_setReg_advance hpc _ (hf _ _)
  · refine ⟨s.takeFault .registerIndexOutOfRange s.fetchedWord, ?_, ?_⟩
    · by_cases hd : rd.toNat < 8
      · rw [withReg_of_lt hd]
        by_cases ha : ra.toNat < 8
        · rw [withReg_of_lt ha, withReg_of_not_lt fun hb => h ⟨hd, ha, hb⟩, raise_eq]
        · rw [withReg_of_not_lt ha, raise_eq]
      · rw [withReg_of_not_lt hd, raise_eq]
    · rw [dif_neg h]
      rfl

/-! ## The statements -/

/-- Settles O23: the slots of `add` are its operands, and its handler is by definition the three-register form of the
exact sum, reduced into the range of a register. -/
theorem addWrapsModulo256 : Obligations.AddWrapsModulo256 := fun s rd ra rb hpc =>
  ⟨encodesAs_slots (.add rd ra rb),
    threeRegs_writes_or_faults hpc rd ra rb fun i j => emod_sizeLim_range (s.reg i + s.reg j)⟩

/-- Settles O24: the slots of `sub` are its operands, and its handler is by definition the three-register form of the
exact difference, slot 1 minus slot 2, reduced into the range of a register. -/
theorem subWrapsModulo256 : Obligations.SubWrapsModulo256 := fun s rd ra rb hpc =>
  ⟨encodesAs_slots (.sub rd ra rb),
    threeRegs_writes_or_faults hpc rd ra rb fun i j => emod_sizeLim_range (s.reg i - s.reg j)⟩

end Sys2Proof.Proofs.Arithmetic

/-! PROOF. Fault entry (60_exceptions.md section 2): what a fault raised inside a step changes (R206), the run that ends
with it (R110), and the fault of the load (R208). -/

namespace Sys2Proof.Proofs.Exceptions

open Sys2Proof.Laws Sys2Proof.Machine

variable {op : OpcodeMap} {s t : State} {i : Instr}

/-! ## Faults inside a step (R206) -/

/-- No write comes before a fault of a handler: the effects that end `Faulted` are fault entries of the state the
handler began with. Every other effect leaves the status or halts. -/
theorem takeFault_of_effect (hs : s.status ≠ .faulted) (h : Effect i s t) (ht : t.status = .faulted) :
    ∃ k w, t = s.takeFault k w := by
  cases h with
  | badRegister | badTarget => exact ⟨_, _, rfl⟩
  | jump | fall | writeReg | write | printReg | printWord => exact absurd ht hs
  | halt => cases ht

/-- A step of R108 that ends `Faulted` is fault entry, in its handler or before dispatch. -/
theorem takeFault_of_coreStep (hs : s.status ≠ .faulted) (h : coreStep op s = .next t) (ht : t.status = .faulted) :
    ∃ k w, t = s.takeFault k w := by
  obtain ⟨i, _, hi⟩ | ⟨_, _, hf⟩ | ⟨_, hf⟩ := coreStep_cases op s
  · exact takeFault_of_effect hs (exec_effect (hi.symm.trans h)) ht
  all_goals
    cases hf.symm.trans h
    exact ⟨_, _, rfl⟩

/-- A step that ends `Faulted` is fault entry: the loop counts no such step. -/
theorem takeFault_of_stepWith (h : stepWith op s = .next t) (ht : t.status = .faulted) :
    ∃ k w, t = s.takeFault k w := by
  obtain ⟨running, u, hu, rfl⟩ := stepWith_next h
  by_cases faulted : u.status = .faulted
  · rw [if_pos faulted]
    exact takeFault_of_coreStep (by simp [running]) hu faulted
  · rw [if_neg faulted] at ht
    exact absurd ht faulted

/-- A run ends with the iteration that faults, however many more it was given. -/
theorem run_succ_of_faulted {b : Option Nat} (h : runIteration op b s = .next t) (ht : t.status = .faulted) (n : Nat) :
    run op b (n + 1) s = .faulted t := by
  simp only [run, h, ht]

/-! ## The load (R208, R241) -/

variable {p : List Word}

theorem loadProgram_of_lt (h : p.length < Config.ramLen) :
    loadProgram p = .ok { State.reset with mem := memLoad [] 0 p, plen := BitVec.ofNat 8 p.length } := if_pos h

theorem loadProgram_of_not_lt (h : ¬ p.length < Config.ramLen) : loadProgram p = .error .programTooLong := if_neg h

/-! ## The statements -/

/-- Settles O13: a step that ends `Faulted` is fault entry, and the run loop without a budget begins with that step. -/
theorem faultChangesStatusAndRecordOnly : Obligations.FaultChangesStatusAndRecordOnly := fun _ _ _ h ht =>
  ⟨takeFault_of_stepWith h ht, run_succ_of_faulted h ht⟩

/-- Settles O39: the load has one answer below 256 words and the other from there up. -/
theorem loadFailsExactlyFrom256Words : Obligations.LoadFailsExactlyFrom256Words := by
  intro p
  by_cases short : p.length < 256
  · simp only [loadProgram_of_lt short, reduceCtorEq, Except.ok.injEq, exists_eq', false_iff, true_iff]
    omega
  · simp only [loadProgram_of_not_lt short, reduceCtorEq, exists_false, true_iff, false_iff]
    omega

end Sys2Proof.Proofs.Exceptions

/-! PROOF. The decoder over all words (30_encoding.md sections 4 to 6): which bytes are codes (R68, R69), and that the
bytes of unused slots play no part (R70). -/

namespace Sys2Proof.Proofs.Decoding

open Sys2Proof.Laws Sys2Proof.Proofs.Encoding

variable {op : OpcodeMap} {m : Mnemonic} {w : Word} {i : Instr}

/-! ## Unused slots (R70) -/

/-- The slots of a selected instruction are the bytes it was selected by, zeroed where the format uses none. -/
theorem slots_selectInstr (m : Mnemonic) (a b c : Byte) :
    (selectInstr m a b c).slots =
      (m.format.1.canonicalByte a, m.format.2.1.canonicalByte b, m.format.2.2.canonicalByte c) := by
  cases m <;> rfl

/-- Zeroing the unused slots selects the same instruction. -/
theorem selectInstr_canonicalByte (m : Mnemonic) (a b c : Byte) :
    selectInstr m (m.format.1.canonicalByte a) (m.format.2.1.canonicalByte b) (m.format.2.2.canonicalByte c) =
      selectInstr m a b c := by
  cases m <;> rfl

@[simp] theorem opcodeField_canonicalWord (m : Mnemonic) (w : Word) :
    opcodeField (canonicalWord m w) = opcodeField w := opcodeField_packWord ..

/-- A selected instruction is encoded as the word of its bytes with the unused slots zeroed. -/
theorem encodeWith_selectInstr (h : op m = opcodeField w) :
    encodeWith op (selectInstr m (arg0 w) (arg1 w) (arg2 w)) = canonicalWord m w := by
  rw [encodeWith, mnemonic_selectInstr, slots_selectInstr, h, canonicalWord]

/-- Under distinct codes a word with the code of `m` decodes to the instruction that `m` and its slots select. -/
theorem decodeWith_of_code (hop : Function.Injective op) (h : opcodeField w = op m) :
    decodeWith op w = .ok (selectInstr m (arg0 w) (arg1 w) (arg2 w)) :=
  decodeWith_of_lookup (h ▸ lookup_code hop m)

/-- A word decodes as its canonical word does. -/
theorem decodeWith_canonicalWord (hop : Function.Injective op) (h : opcodeField w = op m) :
    decodeWith op (canonicalWord m w) = decodeWith op w := by
  rw [decodeWith_of_code hop h, decodeWith_of_code hop ((opcodeField_canonicalWord m w).trans h)]
  simp only [canonicalWord, arg0_packWord, arg1_packWord, arg2_packWord, selectInstr_canonicalByte]

/-! ## The bytes that are codes (R68, R69) -/

theorem decodeWith_eq_error :
    decodeWith op w = .error (.unknownOpcode (opcodeField w)) ↔ ∀ m, op m ≠ opcodeField w := by
  rw [← lookup_eq_none]
  obtain ⟨m, found, answer⟩ | ⟨missing, answer⟩ := decodeWith_cases op w
  · simp [answer, found]
  · simp [answer, missing]

theorem exists_decodeWith_eq_ok : (∃ i, decodeWith op w = .ok i) ↔ ∃ m, op m = opcodeField w := by
  obtain ⟨m, found, answer⟩ | ⟨missing, answer⟩ := decodeWith_cases op w
  · simpa [answer] using ⟨m, code_of_lookup found⟩
  · simpa [answer] using lookup_eq_none.mp missing

/-- The default map numbers the list of the mnemonics from 1 on (decision D1). -/
theorem defaultOpcode_getElem (k : Fin 15) : (defaultOpcode (Mnemonic.all[k.val]'k.isLt)).toNat = k.val + 1 := by
  decide +revert

theorem exists_defaultOpcode_eq (b : Byte) : (∃ m, defaultOpcode m = b) ↔ 1 ≤ b.toNat ∧ b.toNat ≤ 15 := by
  constructor
  · rintro ⟨m, rfl⟩
    cases m <;> decide
  · intro ⟨lo, hi⟩
    refine ⟨_, BitVec.eq_of_toNat_eq ((defaultOpcode_getElem ⟨b.toNat - 1, by omega⟩).trans ?_)⟩
    simp only
    omega

/-! ## The statements -/

/-- Settles O4: the decoder's answer is selected by a mnemonic with the word's code and by the word's slots. -/
theorem encodeOfDecodeIsCanonicalWord : Obligations.EncodeOfDecodeIsCanonicalWord := by
  intro op w i decoded
  obtain ⟨m, found, answer⟩ | ⟨_, answer⟩ := decodeWith_cases op w
  · cases answer.symm.trans decoded
    rw [mnemonic_selectInstr]
    exact ⟨code_of_lookup found, encodeWith_selectInstr (code_of_lookup found)⟩
  · cases answer.symm.trans decoded

/-- Settles O5: both words decode as their common canonical word, which has the opcode byte of both. -/
theorem unusedSlotBytesIgnored : Obligations.UnusedSlotBytesIgnored := by
  intro op m w w' ⟨injective, _⟩ code same
  have code' : opcodeField w' = op m := by
    rw [← opcodeField_canonicalWord m w', ← same, opcodeField_canonicalWord, code]
  refine ⟨_, mnemonic_selectInstr .., decodeWith_of_code injective code, ?_⟩
  rw [← decodeWith_canonicalWord injective code', ← same, decodeWith_canonicalWord injective code,
    decodeWith_of_code injective code]

/-- Settles O6: the search finds nothing exactly where the byte is no code, and the default codes are 1 to 15. -/
theorem decodeRejectsExactlyUnassignedOpcodes : Obligations.DecodeRejectsExactlyUnassignedOpcodes := by
  refine ⟨fun op w => decodeWith_eq_error, fun op w ⟨_, nonzero⟩ zero => ?_, fun w => ?_⟩
  · have rejected : decodeWith op w = .error (.unknownOpcode (opcodeField w)) :=
      decodeWith_eq_error.mpr fun m => zero ▸ nonzero m
    rwa [zero] at rejected
  · exact exists_decodeWith_eq_ok.trans (exists_defaultOpcode_eq _)

/-- Settles O7: nine words, one for each format, evaluated by the decoder. -/
theorem specWordsDecodeAsSpelled : Obligations.SpecWordsDecodeAsSpelled := by
  refine ⟨?_, ?_, ?_, ?_, ?_, ?_, ?_, ?_, ?_⟩ <;> decide

end Sys2Proof.Proofs.Decoding

/-! PROOF. One iteration of the run loop (40_step_cycle.md R100 to R109): every handler answers a next state, what an
iteration can do, and what each effect does to each part of the state. -/

namespace Sys2Proof.Proofs.Iterations

open Sys2Proof.Laws Sys2Proof.Machine Sys2Proof.Proofs.Encoding

variable {op : OpcodeMap} {b : Option Nat} {s t u : State} {i : Instr}

/-! ## Every handler answers a next state -/

theorem withReg_answers {r : Byte} {k : RegIdx → Outcome} (hk : ∀ d, ∃ t, k d = .next t) :
    ∃ t, withReg r s k = .next t := by
  by_cases hr : r.toNat < Config.numReg
  · rw [withReg_of_lt hr]
    exact hk _
  · exact ⟨_, withReg_of_not_lt hr k⟩

theorem takeJump_answers (a : Byte) (s : State) : ∃ t, takeJump a s = .next t := by
  by_cases ha : a.toNat < s.plen.toNat
  · exact ⟨_, takeJump_of_lt ha⟩
  · exact ⟨_, takeJump_of_not_lt ha⟩

/-! The handlers with a memory operand, without the check that a byte always passes (R44). -/

theorem exec_ldm (r a : Byte) (s : State) :
    exec (.ldm r a) s = withReg r s fun d => finish (s.setReg d (s.load a.toNat).toNat) := by
  simp only [exec, execLdm, withAddr_eq]

theorem exec_stm (a r : Byte) (s : State) :
    exec (.stm a r) s = withReg r s fun d => finish (s.store a.toNat (trunc32 (s.reg d))) := by
  simp only [exec, execStm, withAddr_eq]

theorem exec_prm (a : Byte) (s : State) : exec (.prm a) s = finish (s.print (s.load a.toNat).toNat) := by
  simp only [exec, execPrm, withAddr_eq]

/-- No handler stops the model: a fault is a next state. -/
theorem exec_answers (i : Instr) (s : State) : ∃ t, exec i s = .next t := by
  cases i with
  | hlt | nop => exact ⟨_, rfl⟩
  | prm a => exact ⟨_, exec_prm a s⟩
  | jmp a => exact takeJump_answers a s
  | ldi | prr =>
    simp only [exec, execLdi, execPrr]
    exact withReg_answers fun _ => ⟨_, rfl⟩
  | ldm | stm =>
    simp only [exec_ldm, exec_stm]
    exact withReg_answers fun _ => ⟨_, rfl⟩
  | mov =>
    simp only [exec, execMov]
    exact withReg_answers fun _ => withReg_answers fun _ => ⟨_, rfl⟩
  | add | sub | eq | lt =>
    simp only [exec, execAdd, execSub, execEq, execLt]
    exact withReg_answers fun _ => withReg_answers fun _ => withReg_answers fun _ => ⟨_, rfl⟩
  | jz r a =>
    simp only [exec, execJz]
    refine withReg_answers fun _ => ?_
    split
    · exact takeJump_answers a s
    · exact ⟨_, rfl⟩
  | jnz r a =>
    simp only [exec, execJnz]
    refine withReg_answers fun _ => ?_
    split
    · exact ⟨_, rfl⟩
    · exact takeJump_answers a s

/-- A step of R108 answers a next state, whatever is in memory. -/
theorem coreStep_answers (op : OpcodeMap) (s : State) : ∃ t, coreStep op s = .next t := by
  obtain ⟨i, _, hi⟩ | ⟨_, _, hf⟩ | ⟨_, hf⟩ := coreStep_cases op s
  · exact hi ▸ exec_answers i s
  · exact ⟨_, hf⟩
  · exact ⟨_, hf⟩

/-! ## The instruction at `pc` -/

theorem coreStep_of_runs (h : s.runs op i) : coreStep op s = exec i s := by
  simp only [coreStep, if_pos h.1, h.2]

theorem eq_of_runs {j : Instr} (hi : s.runs op i) (hj : s.runs op j) : i = j :=
  Except.ok.inj (hi.2.symm.trans hj.2)

/-! ## The count of a step (R109) -/

/-- The state after a step with the step counted, unless it faulted. -/
def counted (u : State) : State := if u.status = .faulted then u else { u with steps := u.steps + 1 }

@[simp] theorem countStep_next_eq (u : State) : countStep (.next u) = .next (counted u) := rfl

/-- A property that does not look at `STEPS` is one of the counted state exactly if it is one of the state. -/
theorem counted_iff {P : State → Prop} (h : ∀ n, P { u with steps := n } ↔ P u) : P (counted u) ↔ P u := by
  unfold counted
  split
  · rfl
  · exact h _

@[simp] theorem counted_pc : (counted u).pc = u.pc := by unfold counted; split <;> rfl
@[simp] theorem counted_plen : (counted u).plen = u.plen := by unfold counted; split <;> rfl
@[simp] theorem counted_status : (counted u).status = u.status := by unfold counted; split <;> rfl
@[simp] theorem counted_out : (counted u).out = u.out := by unfold counted; split <;> rfl
@[simp] theorem counted_fetchedWord : (counted u).fetchedWord = u.fetchedWord := by unfold counted; split <;> rfl

theorem counted_of_faulted (h : u.status = .faulted) : counted u = u := if_pos h

theorem counted_of_not_faulted (h : u.status ≠ .faulted) : counted u = { u with steps := u.steps + 1 } := if_neg h

/-- A running machine whose instruction answers `u` makes a step to the counted `u`. -/
theorem stepWith_of_runs (hs : s.status = .running) (hi : s.runs op i) (hu : exec i s = .next u) :
    stepWith op s = .next (counted u) := by
  rw [stepWith_of_running op hs, coreStep_of_runs hi, hu, countStep_next_eq]

/-! ## What an iteration can do -/

/-- Everything one iteration of the run loop can do to the state. -/
inductive Iteration (op : OpcodeMap) (b : Option Nat) (s : State) : State → Prop where
  /-- The budget is reached (R207). -/
  | budget (h : b = some s.steps) : Iteration op b s (s.takeFault .stepBudgetExceeded none)
  /-- `pc` is outside memory (R201). -/
  | outside (hb : b ≠ some s.steps) (hpc : Config.ramLen ≤ s.pc.toNat) :
      Iteration op b s (s.takeFault .instructionPointerOutOfRange none)
  /-- The fetched word is no instruction's (R202). -/
  | unknown (hb : b ≠ some s.steps) (hpc : s.pc.toNat < Config.ramLen)
      (hd : ∃ e, decodeWith op (s.load s.pc.toNat) = .error e) :
      Iteration op b s (s.takeFault .unknownOpcode (some (s.load s.pc.toNat)))
  /-- The handler of the instruction at `pc` answered, and the step was counted. -/
  | handler (hb : b ≠ some s.steps) (i : Instr) (hi : s.runs op i) (u : State) (hu : exec i s = .next u) :
      Iteration op b s (counted u)

theorem iteration_of_next (h : runIteration op b s = .next t) : Iteration op b s t := by
  rw [runIteration_of_running op b (runIteration_next_running h)] at h
  by_cases hb : b = some s.steps
  · rw [if_pos hb] at h
    cases h
    exact .budget hb
  · rw [if_neg hb] at h
    obtain ⟨i, hi, hex⟩ | ⟨hpc, hd, hf⟩ | ⟨hpc, hf⟩ := coreStep_cases op s
    · obtain ⟨u, hu, rfl⟩ := countStep_next h
      exact .handler hb i hi u (hex.symm.trans hu)
    · rw [hf] at h
      cases h
      exact .unknown hb hpc hd
    · rw [hf] at h
      cases h
      exact .outside hb hpc

/-- An iteration on a running machine answers a next state. -/
theorem runIteration_answers (op : OpcodeMap) (b : Option Nat) (hs : s.status = .running) :
    ∃ t, runIteration op b s = .next t := by
  rw [runIteration_of_running op b hs]
  split
  · exact ⟨_, rfl⟩
  · obtain ⟨u, hu⟩ := coreStep_answers op s
    exact ⟨_, by rw [hu, countStep_next_eq]⟩

/-! ## What an iteration leaves unchanged, and what it counts -/

theorem plen_of_effect (h : Effect i s t) : t.plen = s.plen := by cases h <;> rfl

theorem steps_of_effect (h : Effect i s t) : t.steps = s.steps := by cases h <;> rfl

theorem plen_of_iteration (h : Iteration op b s t) : t.plen = s.plen := by
  cases h with
  | budget | outside | unknown => rfl
  | handler _ i _ u hu => rw [counted_plen, plen_of_effect (exec_effect hu)]

/-- An iteration that ends `Faulted` is not counted, and any other is (R109). -/
theorem steps_of_iteration (h : Iteration op b s t) :
    t.steps = if t.status = .faulted then s.steps else s.steps + 1 := by
  cases h with
  | budget | outside | unknown => rfl
  | handler _ i _ u hu =>
    rw [counted_status, ← steps_of_effect (exec_effect hu)]
    unfold counted
    split <;> rfl

/-! ## Faults (R27, R206) -/

/-- What a machine can record of a fault of kind `k` at `s`: the word at `pc` exactly for the kinds raised after the
fetch, and none of the two kinds that need an address beyond a byte or a load. -/
structure Recordable (s : State) (k : FaultKind) (w : Option Word) : Prop where
  word : w = if k.carriesWord then s.fetchedWord else none
  fetched : k.carriesWord = true → s.pc.toNat < Config.ramLen
  not_address : k ≠ .memoryAddressOutOfRange
  not_length : k ≠ .programTooLong

/-- An effect that ends `Faulted` is the entry of one of the two faults of a handler. -/
theorem fault_of_effect (hs : s.status ≠ .faulted) (h : Effect i s t) (ht : t.status = .faulted) :
    ∃ k, (k = .registerIndexOutOfRange ∨ k = .jumpTargetOutOfRange) ∧ t = s.takeFault k s.fetchedWord := by
  cases h with
  | badRegister => exact ⟨_, .inl rfl, rfl⟩
  | badTarget => exact ⟨_, .inr rfl, rfl⟩
  | jump | fall | writeReg | write | printReg | printWord => exact absurd ht hs
  | halt => cases ht

/-- An iteration that ends `Faulted` is the entry of a recordable fault, and of the budget's where the budget is
reached. -/
theorem fault_of_iteration (hs : s.status = .running) (h : Iteration op b s t) (ht : t.status = .faulted) :
    ∃ k w, t = s.takeFault k w ∧ Recordable s k w ∧ (k = .stepBudgetExceeded ↔ b = some s.steps) := by
  cases h with
  | budget hb => exact ⟨_, _, rfl, ⟨rfl, nofun, nofun, nofun⟩, by simp [hb]⟩
  | outside hb => exact ⟨_, _, rfl, ⟨rfl, nofun, nofun, nofun⟩, by simp [hb]⟩
  | unknown hb hpc =>
    exact ⟨_, _, rfl, ⟨(fetchedWord_of_lt s hpc).symm, fun _ => hpc, nofun, nofun⟩, by simp [hb]⟩
  | handler hb i hi u hu =>
    rw [counted_status] at ht
    rw [counted_of_faulted ht]
    obtain ⟨k, rfl | rfl, rfl⟩ := fault_of_effect (by simp [hs]) (exec_effect hu) ht <;>
      exact ⟨_, _, rfl, ⟨rfl, fun _ => hi.1, nofun, nofun⟩, by simp [hb]⟩

/-! ## The run loop -/

/-- What every iteration keeps holds where a run stands. -/
theorem run_keeps {P : State → Prop} (keeps : ∀ s t, P s → runIteration op b s = .next t → P t) (n : Nat)
    (hs : P s) (h : (run op b n s).state? = some t) : P t := by
  induction n generalizing s with
  | zero =>
    cases h
    exact hs
  | succ n ih =>
    unfold run at h
    cases hit : runIteration op b s with
    | next u =>
      have hu := keeps s u hs hit
      simp only [hit] at h
      cases hst : u.status <;> simp only [hst] at h
      · exact ih hu h
      · cases h
        exact hu
      · cases h
        exact hu
    | fault f => simp [hit, RunOutcome.state?] at h
    | refused r =>
      simp only [hit] at h
      cases h
      exact hs

end Sys2Proof.Proofs.Iterations

/-! PROOF. The invariant (10_state.md sections 2 to 4): it holds after a load, every iteration of the run loop keeps it,
and so does every run. -/

namespace Sys2Proof.Proofs.Invariant

open Sys2Proof.Laws Sys2Proof.Machine Sys2Proof.Proofs.Exceptions Sys2Proof.Proofs.Iterations

variable {op : OpcodeMap} {b : Option Nat} {s t u : State} {i : Instr}

/-! ## The parts of the invariant -/

/-- A machine that is not `Faulted` and has no record meets the invariant with its other three parts. -/
theorem inv_of_no_fault (hst : t.status ≠ .faulted) (hf : t.fault = none) (hmem : t.mem.wf = true)
    (hpc : t.pc.toNat ≤ 256) (hregs : t.regsInRange) : t.Inv :=
  ⟨hmem, hpc, hregs, by simp [State.faultConsistent, hf, hst]⟩

/-- A machine that is not `Faulted` has no record. -/
theorem fault_eq_none (h : s.Inv) (hs : s.status ≠ .faulted) : s.fault = none := by
  obtain ⟨-, -, -, consistent⟩ := h
  cases hf : s.fault with
  | none => rfl
  | some f => simp [State.faultConsistent, hf, hs] at consistent

/-- The entry of a recordable fault keeps the invariant: nothing but the record and the status changes. -/
theorem inv_takeFault {k : FaultKind} {w : Option Word} (h : s.Inv) (hr : Recordable s k w) :
    (s.takeFault k w).Inv := by
  obtain ⟨hmem, hpc, hregs, -⟩ := h
  refine ⟨hmem, hpc, hregs, ?_⟩
  simp [State.faultConsistent, ← hr.word, hr.not_address, hr.not_length]

/-- A register written with another register's value, or with a value of the range of R21, stays in that range. -/
theorem regsInRange_setReg (h : s.regsInRange) (d : RegIdx) {n : Int}
    (hn : (∃ j, n = s.reg j) ∨ (-128 ≤ n ∧ n < 2 ^ 32)) : (s.setReg d n).regsInRange := by
  have ⟨lo, hi⟩ : -128 ≤ n ∧ n < 2 ^ 32 := by
    obtain ⟨j, rfl⟩ | hn := hn
    · exact h j
    · exact hn
  intro j
  by_cases hj : j = d
  · rw [hj, reg_setReg_same s d (by omega) hi]
    exact ⟨lo, hi⟩
  · rw [reg_setReg_ne s n hj]
    exact h j

/-! ## Iterations and runs -/

/-- An effect that does not fault keeps the invariant, from a `pc` at which a handler runs. -/
theorem inv_of_effect (hs : s.status = .running) (hpc : s.pc.toNat < 256) (hinv : s.Inv) (h : Effect i s t)
    (ht : t.status ≠ .faulted) : t.Inv := by
  have hf := fault_eq_none hinv (by simp [hs])
  obtain ⟨hmem, -, hregs, -⟩ := hinv
  have next (u : State) (hu : u.pc = s.pc) : u.advance.pc.toNat ≤ 256 := by
    rw [advance_pc_toNat u (hu ▸ hpc), hu]
    omega
  cases h with
  | badRegister | badTarget => exact absurd rfl ht
  | jump a => exact inv_of_no_fault ht hf hmem (by rw [jumpTo_pc_toNat]; exact a.isLt.le) hregs
  | fall => exact inv_of_no_fault ht hf hmem (next s rfl) hregs
  | halt => exact inv_of_no_fault ht hf hmem (next s.halt rfl) hregs
  | writeReg d n _ hn => exact inv_of_no_fault ht hf hmem (next (s.setReg d n) rfl) (regsInRange_setReg hregs d hn)
  | write a r _ w => exact inv_of_no_fault ht hf (wf_memWrite w a.isLt hmem) (next (s.store a.toNat w) rfl) hregs
  | printReg | printWord => exact inv_of_no_fault ht hf hmem (next (s.print _) rfl) hregs

theorem inv_of_iteration (hs : s.status = .running) (hinv : s.Inv) (h : Iteration op b s t) : t.Inv := by
  by_cases ht : t.status = .faulted
  · obtain ⟨k, w, rfl, recordable, -⟩ := fault_of_iteration hs h ht
    exact inv_takeFault hinv recordable
  · cases h with
    | budget | outside | unknown => exact absurd rfl ht
    | handler _ i hi u hu =>
      rw [counted_status] at ht
      exact (counted_iff fun _ => Iff.rfl).mpr (inv_of_effect hs hi.1 hinv (exec_effect hu) ht)

theorem inv_of_runIteration (hinv : s.Inv) (h : runIteration op b s = .next t) : t.Inv :=
  inv_of_iteration (runIteration_next_running h) hinv (iteration_of_next h)

/-! ## The load -/

theorem regsInRange_reset : State.reset.regsInRange := fun j => by
  rw [reset_reg]
  decide

theorem inv_of_loadProgram {p : List Word} (h : loadProgram p = .ok s) : s.Inv := by
  by_cases short : p.length < Config.ramLen
  · rw [loadProgram_of_lt short] at h
    cases h
    exact inv_of_no_fault nofun rfl (wf_memLoad (by omega) rfl) (Nat.zero_le _) regsInRange_reset
  · rw [loadProgram_of_not_lt short] at h
    cases h

/-! ## The statements -/

/-- Settles O43: every iteration keeps the invariant. -/
theorem everyRunKeepsTheInvariant : Obligations.EveryRunKeepsTheInvariant := fun _ _ n _ _ hinv h =>
  run_keeps (fun _ _ => inv_of_runIteration) n hinv h

/-- Settles O42: the host's step is an iteration under the default map. -/
theorem everyStepKeepsTheInvariant : Obligations.EveryStepKeepsTheInvariant := fun _ _ hinv h =>
  inv_of_runIteration hinv h

/-- Settles O41: the words are placed inside memory, and every other part is at its reset value. -/
theorem loadedStateMeetsTheInvariant : Obligations.LoadedStateMeetsTheInvariant := fun _ _ => inv_of_loadProgram

/-- Settles O40: the reset state is the load of the empty program. -/
theorem resetMeetsTheInvariant : Obligations.ResetMeetsTheInvariant := inv_of_loadProgram (p := []) rfl

end Sys2Proof.Proofs.Invariant

/-! PROOF. Memory and the load (20_memory.md section 1, 70_reset_and_hazards.md section 1): the list is determined by
what it reads, and what stands in the state after a load. -/

namespace Sys2Proof.Proofs.MemoryLoad

open Sys2Proof.Laws Sys2Proof.Machine Sys2Proof.Proofs.Exceptions

/-! ## The canonical list (20_memory.md section 1) -/

section
variable {lo k k' n : Nat} {v : Byte} {m m' : Memory}

theorem risingFrom_cons : Memory.risingFrom lo ((k, v) :: m) = true ↔
    lo ≤ k ∧ k < Memory.cellBase Config.ramLen ∧ v ≠ Memory.padding ∧ Memory.risingFrom (k + 1) m = true := by
  simp only [Memory.risingFrom, Bool.and_eq_true, decide_eq_true_eq, and_assoc]

theorem readByte_head (k : Nat) (v : Byte) (m : Memory) : Memory.readByte ((k, v) :: m) k = v := if_pos rfl

theorem readByte_tail (v : Byte) (m : Memory) (h : k ≠ n) : Memory.readByte ((k, v) :: m) n = m.readByte n := if_neg h

/-- A byte below every listed number reads as the padding. -/
theorem readByte_of_lt (hm : Memory.risingFrom lo m = true) (hn : n < lo) : m.readByte n = Memory.padding := by
  induction m generalizing lo with
  | nil => rfl
  | cons c m ih =>
    obtain ⟨low, -, -, rising⟩ := risingFrom_cons.mp hm
    rw [readByte_tail c.2 m (by omega), ih rising (by omega)]

/-- So a byte that does not read as the padding is no lower than the listed numbers begin. -/
theorem le_of_readByte_ne (hm : Memory.risingFrom lo m = true) (hn : m.readByte n ≠ Memory.padding) : lo ≤ n :=
  Nat.not_lt.mp fun below => hn (readByte_of_lt hm below)

/-- The first entry of a canonical list is the least byte that does not read as the padding. So two lists that read
alike have the same first entry, and their tails read alike. -/
theorem eq_of_readByte_eq (hm : Memory.risingFrom lo m = true) (hm' : Memory.risingFrom lo m' = true)
    (same : ∀ n, m.readByte n = m'.readByte n) : m = m' := by
  induction m generalizing lo m' with
  | nil =>
    cases m' with
    | nil => rfl
    | cons c' m' =>
      obtain ⟨-, -, nonzero, -⟩ := risingFrom_cons.mp hm'
      exact absurd (readByte_head c'.1 c'.2 m') (same c'.1 ▸ nonzero.symm)
  | cons c m ih =>
    obtain ⟨k, v⟩ := c
    obtain ⟨-, inside, nonzero, rising⟩ := risingFrom_cons.mp hm
    cases m' with
    | nil => exact absurd (readByte_head k v m) (same k ▸ nonzero.symm)
    | cons c' m' =>
      obtain ⟨k', v'⟩ := c'
      obtain ⟨-, inside', nonzero', rising'⟩ := risingFrom_cons.mp hm'
      have k_le : k ≤ k' := le_of_readByte_ne (risingFrom_cons.mpr ⟨le_rfl, inside, nonzero, rising⟩)
        (by rwa [same k', readByte_head])
      have k'_le : k' ≤ k := le_of_readByte_ne (risingFrom_cons.mpr ⟨le_rfl, inside', nonzero', rising'⟩)
        (by rwa [← same k, readByte_head])
      obtain rfl : k = k' := Nat.le_antisymm k_le k'_le
      obtain rfl : v = v' := by simpa only [readByte_head] using same k
      have tails (n : Nat) : Memory.readByte m n = Memory.readByte m' n := by
        by_cases hn : k = n
        · rw [readByte_of_lt rising (by omega), readByte_of_lt rising' (by omega)]
        · simpa only [readByte_tail v _ hn] using same n
      rw [ih rising rising' tails]

end

/-! ## The statements -/

/-- Settles O35: the canonical form is rising from 0. -/
theorem memoriesThatReadAlikeAreEqual : Obligations.MemoriesThatReadAlikeAreEqual := fun _ _ => eq_of_readByte_eq

/-- Settles O38: a cell of the program holds its word and a cell beyond it the empty memory's 0; the rest of the state
is the reset state's. -/
theorem loadLeavesProgramAndZeroPadding : Obligations.LoadLeavesProgramAndZeroPadding := by
  intro p short
  refine ⟨_, loadProgram_of_lt short, fun a ha => ?_, fun a ha => ?_, ?_, reset_reg, rfl, rfl, rfl, rfl, rfl⟩
  · simp [State.load, memRead_memLoad, ha]
  · simp [State.load, memRead_memLoad, Nat.not_lt.mpr ha]
  · exact Nat.mod_eq_of_lt short

/-- Settles O37: the parts of the reset state, with its registers and its cells read by their lemmas. -/
theorem resetStateIsTheEmptyLoad : Obligations.ResetStateIsTheEmptyLoad :=
  ⟨reset_reg, rfl, memRead_nil, rfl, rfl, rfl, rfl, rfl, rfl⟩

end Sys2Proof.Proofs.MemoryLoad

/-! PROOF. The instructions other than `add` and `sub` (41_system.md to 47_output.md): canonical word, result, frame and
checks of each, and the laws that relate two of them. -/

namespace Sys2Proof.Proofs.Instructions

open Sys2Proof.Laws Sys2Proof.Machine Sys2Proof.Proofs.Encoding Sys2Proof.Proofs.Decoding
open Sys2Proof.Proofs.StepCycle Sys2Proof.Proofs.Arithmetic Sys2Proof.Proofs.Iterations

variable {s t : State} {i : Instr}

/-! ## Canonical words with unused slots -/

theorem encodesAs_two_slots (h : i.slots.2.2 = 0) :
    EncodesAs i (i.slots.1.toNat * 2 ^ 8 + i.slots.2.1.toNat * 2 ^ 16) := by
  simpa [h] using encodesAs_slots i

theorem encodesAs_one_slot (h1 : i.slots.2.1 = 0) (h2 : i.slots.2.2 = 0) : EncodesAs i (i.slots.1.toNat * 2 ^ 8) := by
  simpa [h1] using encodesAs_two_slots h2

/-! ## The frames of the ends of a handler -/

/-- A value that a cell can hold written to a register, then `pc + 1`. -/
theorem writesReg_of_cell_range (hpc : s.pc.toNat < 256) (d : RegIdx) {n : Int} (hn : -2 ^ 32 ≤ n ∧ n < 2 ^ 32) :
    WritesReg s (s.setReg d n).advance d n :=
  ⟨reg_setReg_same s d hn.1 hn.2, fun _ other => reg_setReg_ne s n other, fun _ => rfl, ⟨rfl, rfl, rfl, rfl, rfl⟩,
    advance_pc_toNat (s.setReg d n) hpc⟩

theorem fallsThrough_advance (hpc : s.pc.toNat < 256) : FallsThrough s s.advance :=
  ⟨fun _ => rfl, fun _ => rfl, ⟨rfl, rfl, rfl, rfl, rfl⟩, advance_pc_toNat s hpc⟩

theorem jumps_jumpTo (s : State) (a : Byte) : Jumps s (s.jumpTo a) a :=
  ⟨fun _ => rfl, fun _ => rfl, ⟨rfl, rfl, rfl, rfl, rfl⟩, jumpTo_pc_toNat s a⟩

theorem load_store_advance_same (s : State) (a : Nat) (w : Word) : (s.store a w).advance.load a = w :=
  memRead_memWrite_same s.mem a w

theorem storesWord_store_advance (hpc : s.pc.toNat < 256) (a : Nat) (w : Word) :
    StoresWord s (s.store a w).advance a w :=
  ⟨load_store_advance_same s a w, fun n => readByte_memWrite_of_outside s.mem a n w,
    fun _ => memRead_memWrite_ne s.mem w, fun _ => rfl, ⟨rfl, rfl, rfl, rfl, rfl⟩,
    advance_pc_toNat (s.store a w) hpc⟩

theorem prints_print_advance (hpc : s.pc.toNat < 256) (v : Int) : Prints s (s.print v).advance v :=
  ⟨rfl, fun _ => rfl, fun _ => rfl, rfl, rfl, rfl, rfl, advance_pc_toNat (s.print v) hpc⟩

theorem faults_takeFault (s : State) (k : FaultKind) : Faults s (s.takeFault k s.fetchedWord) k := rfl

/-! ## The operand forms as statements about the next state -/

/-- A handler with one more register operand ends as its rest does, or with the fault of a bad register byte. -/
theorem withReg_post {k : RegIdx → Outcome} {Q : RegIdx → State → Prop} (hk : ∀ d, ∃ t, k d = .next t ∧ Q d t)
    (r : Byte) :
    ∃ t, withReg r s k = .next t ∧
      if h : r.toNat < 8 then Q (regOf r h) t else Faults s t .registerIndexOutOfRange := by
  by_cases hr : r.toNat < 8
  · obtain ⟨t, ht, post⟩ := hk (regOf r hr)
    exact ⟨t, (withReg_of_lt hr k).trans ht, by rwa [dif_pos hr]⟩
  · exact ⟨_, withReg_of_not_lt hr k, by rw [dif_neg hr]; exact faults_takeFault s _⟩

/-- Two register operands are both good, or the fault is taken. -/
theorem withReg_withReg_post {k : RegIdx → RegIdx → Outcome} {Q : RegIdx → RegIdx → State → Prop}
    (hk : ∀ d j, ∃ t, k d j = .next t ∧ Q d j t) (rd rs : Byte) :
    ∃ t, (withReg rd s fun d => withReg rs s fun j => k d j) = .next t ∧
      if h : rd.toNat < 8 ∧ rs.toNat < 8 then Q (regOf rd h.1) (regOf rs h.2) t
      else Faults s t .registerIndexOutOfRange := by
  obtain ⟨t, ht, post⟩ := withReg_post (s := s) (fun d => withReg_post (s := s) (hk d) rs) rd
  refine ⟨t, ht, ?_⟩
  by_cases hd : rd.toNat < 8 <;> by_cases hs : rs.toNat < 8 <;> simpa [hd, hs] using post

/-- A taken jump ends inside the program, or with the fault of a bad target. -/
theorem takeJump_post (a : Byte) (s : State) :
    ∃ t, takeJump a s = .next t ∧
      if a.toNat < s.plen.toNat then Jumps s t a else Faults s t .jumpTargetOutOfRange := by
  by_cases ha : a.toNat < s.plen.toNat
  · exact ⟨_, takeJump_of_lt ha, by rw [if_pos ha]; exact jumps_jumpTo s a⟩
  · exact ⟨_, takeJump_of_not_lt ha, by rw [if_neg ha]; exact faults_takeFault s _⟩

/-- A register operand given by its index is that register. -/
@[simp] theorem withReg_ofNat (r : RegIdx) (k : RegIdx → Outcome) : withReg (BitVec.ofNat 8 r) s k = k r := by
  have index : (BitVec.ofNat 8 r).toNat = r.val := by
    have : r.val < 8 := r.isLt
    rw [BitVec.toNat_ofNat]
    omega
  rw [withReg_of_lt (index.symm ▸ r.isLt)]
  exact congrArg k (Fin.ext index)

theorem exec_ldm_ofNat (d : RegIdx) (a : Byte) (s : State) :
    exec (.ldm (BitVec.ofNat 8 d) a) s = .next (s.setReg d (s.load a.toNat).toNat).advance := by
  rw [exec_ldm, withReg_ofNat, finish]

theorem exec_stm_ofNat (a : Byte) (r : RegIdx) (s : State) :
    exec (.stm a (BitVec.ofNat 8 r)) s = .next (s.store a.toNat (trunc32 (s.reg r))).advance := by
  rw [exec_stm, withReg_ofNat, finish]

/-! ## Tests and conversions -/

theorem truthValue_testEq (x y : Int) : truthValue (testEq x y) = if x = y then 1 else 0 := by
  simp [truthValue, testEq]

theorem truthValue_testLt (x y : Int) : truthValue (testLt x y) = if x < y then 1 else 0 := by
  simp [truthValue, testLt]

theorem testZero_iff {x : Int} : testZero x = true ↔ x = 0 := beq_iff_eq

theorem sext8_eq (v : Byte) : sext8 v = if v.toNat < 128 then (v.toNat : Int) else v.toNat - 256 := by
  unfold sext8
  split <;> split <;> omega

/-- A register holds an integer of its cell (R20). -/
theorem reg_range (s : State) (j : RegIdx) : -2 ^ 32 ≤ s.reg j ∧ s.reg j < 2 ^ 32 := toInt_range _

theorem toNat_word_range (w : Word) : -128 ≤ (w.toNat : Int) ∧ (w.toNat : Int) < 2 ^ 32 := by
  have := w.isLt
  omega

/-! ## System (41_system.md) -/

/-- Settles O17: `hlt` sets the status and falls through. -/
theorem hltHaltsTheMachine : Obligations.HltHaltsTheMachine := fun s hpc =>
  ⟨encodesAs_slots .hlt, s.halt.advance, rfl, rfl, advance_pc_toNat s.halt hpc, fun _ => rfl, fun _ => rfl, rfl, rfl,
    rfl, rfl⟩

/-- Settles O18: `nop` only falls through; 0 is no code of a legal map; and from 255 the next `pc` is outside
memory. -/
theorem nopOnlyAdvances : Obligations.NopOnlyAdvances := by
  intro s hpc
  refine ⟨encodesAs_slots .nop, fun op ⟨_, nonzero⟩ decoded => ?_, s.advance, rfl, fallsThrough_advance hpc,
    fun op running => ⟨fun hi => ?_, fun last => ?_⟩⟩
  · have rejected := decodeWith_eq_error (op := op) (w := 0).mpr nonzero
    cases rejected.symm.trans decoded
  · rw [stepWith_of_runs running hi rfl, counted_of_not_faulted (by simp [running])]
    rfl
  · have next : s.advance.pc.toNat = 256 := by rw [advance_pc_toNat s hpc, last]
    exact ⟨next, stepWith_of_coreStep_takeFault (s := s.advance) running (coreStep_of_pc_outside next.not_lt)⟩

/-! ## Data movement (42_data_movement.md) -/

/-- Settles O19: one register operand, and the sign extension of a byte is in the range of a register. -/
theorem ldiLoadsSignExtendedImmediate : Obligations.LdiLoadsSignExtendedImmediate := by
  intro s r v hpc
  refine ⟨encodesAs_two_slots (i := .ldi r v) rfl, ?_⟩
  simp only [exec, execLdi, immediate, ← sext8_eq]
  have := sext8_range v
  exact withReg_post (Q := fun d t => WritesReg s t d (sext8 v))
    (fun d => ⟨_, rfl, writesReg_setReg_advance hpc d (by omega)⟩) r

/-- Settles O20: two register operands, and a cell can hold whatever a cell held. -/
theorem movCopiesTheWholeValue : Obligations.MovCopiesTheWholeValue := by
  intro s rd rs hpc
  refine ⟨encodesAs_two_slots (i := .mov rd rs) rfl, ?_⟩
  simp only [exec, execMov]
  exact withReg_withReg_post (Q := fun d j t => WritesReg s t d (s.reg j))
    (fun d j => ⟨_, rfl, writesReg_of_cell_range hpc d (reg_range s j)⟩) rd rs

/-! ## Load and store (43_load_store.md) -/

/-- Settles O21: one register operand, an address that is never refused, and a word is in the range of a register. -/
theorem ldmLoadsTheWordUnsigned : Obligations.LdmLoadsTheWordUnsigned := by
  intro s r a hpc
  refine ⟨encodesAs_two_slots (i := .ldm r a) rfl, ?_⟩
  rw [exec_ldm]
  exact withReg_post (Q := fun d t => WritesReg s t d (s.load a.toNat).toNat)
    (fun d => ⟨_, rfl, writesReg_setReg_advance hpc d (toNat_word_range _)⟩) r

/-- Settles O22: the store's frame, and the unsigned value of the stored word. -/
theorem stmStoresTheLowWord : Obligations.StmStoresTheLowWord := by
  intro s a r hpc
  refine ⟨encodesAs_two_slots (i := .stm a r) rfl, ?_⟩
  rw [exec_stm]
  refine withReg_post (Q := fun d t => StoresWord s t a.toNat (trunc32 (s.reg d)) ∧
    ((t.load a.toNat).toNat : Int) = s.reg d % 2 ^ 32) (fun d => ⟨_, rfl, ?_⟩) r
  have frame := storesWord_store_advance hpc a.toNat (trunc32 (s.reg d))
  exact ⟨frame, by rw [frame.1]; exact trunc32_toNat _⟩

/-- Settles O33: the word stored is the word loaded, and it is the register modulo `2^32`, whose one multiple of `2^32`
to add is fixed by the sign, since a cell holds 33 bits. -/
theorem storeThenLoadGivesUnsignedValue : Obligations.StoreThenLoadGivesUnsignedValue := by
  intro s r d a
  obtain ⟨lo, hi⟩ := reg_range s r
  have value : ((trunc32 (s.reg r)).toNat : Int) = s.reg r % 2 ^ 32 := trunc32_toNat (s.reg r)
  refine ⟨_, _, exec_stm_ofNat a r s, exec_ldm_ofNat d a _, ?_⟩
  rw [load_store_advance_same, value, advance_reg, reg_setReg_same _ d (by omega) (by omega)]
  omega

/-! ## Compare (45_compare.md) -/

/-- Settles O25: the three-register form of the truth value of equality. -/
theorem eqComparesSignedIntegers : Obligations.EqComparesSignedIntegers := by
  intro s rd ra rb hpc
  refine ⟨encodesAs_slots (.eq rd ra rb), ?_⟩
  simp only [exec, execEq, ← truthValue_testEq]
  exact threeRegs_writes_or_faults hpc rd ra rb fun _ _ => truthValue_range _

/-- Settles O26: the three-register form of the truth value of the order. -/
theorem ltComparesSignedIntegers : Obligations.LtComparesSignedIntegers := by
  intro s rd ra rb hpc
  refine ⟨encodesAs_slots (.lt rd ra rb), ?_⟩
  simp only [exec, execLt, ← truthValue_testLt]
  exact threeRegs_writes_or_faults hpc rd ra rb fun _ _ => truthValue_range _

/-! ## Control transfer (46_control_transfer.md) -/

/-- Settles O27: a target below `PLEN`, which is a byte, is at most 254. -/
theorem jmpGoesInsideTheProgram : Obligations.JmpGoesInsideTheProgram := by
  intro s a
  refine ⟨encodesAs_one_slot (i := .jmp a) rfl rfl, ?_⟩
  by_cases ha : a.toNat < s.plen.toNat
  · have := s.plen.isLt
    refine ⟨_, takeJump_of_lt ha, ?_⟩
    rw [if_pos ha, jumpTo_pc_toNat]
    exact ⟨jumps_jumpTo s a, by omega⟩
  · exact ⟨_, takeJump_of_not_lt ha, by rw [if_neg ha]; exact faults_takeFault s _⟩

/-- Settles O28: one register operand, then its test, and the target's check in the taken branch alone. -/
theorem jzJumpsOnZero : Obligations.JzJumpsOnZero := by
  intro s r a hpc
  refine ⟨encodesAs_two_slots (i := .jz r a) rfl, ?_⟩
  simp only [exec, execJz]
  refine withReg_post (Q := fun d t => if s.reg d = 0 then
    if a.toNat < s.plen.toNat then Jumps s t a else Faults s t .jumpTargetOutOfRange
    else FallsThrough s t) (fun d => ?_) r
  by_cases zero : s.reg d = 0
  · simp only [testZero_iff, zero, if_true]
    exact takeJump_post a s
  · simp only [testZero_iff, zero, if_false]
    exact ⟨_, rfl, fallsThrough_advance hpc⟩

/-- Settles O29: one register operand, then its test, and the target's check in the taken branch alone. -/
theorem jnzJumpsOnNonZero : Obligations.JnzJumpsOnNonZero := by
  intro s r a hpc
  refine ⟨encodesAs_two_slots (i := .jnz r a) rfl, ?_⟩
  simp only [exec, execJnz]
  refine withReg_post (Q := fun d t => if s.reg d = 0 then FallsThrough s t else
    if a.toNat < s.plen.toNat then Jumps s t a else Faults s t .jumpTargetOutOfRange) (fun d => ?_) r
  by_cases zero : s.reg d = 0
  · simp only [testZero_iff, zero, if_true]
    exact ⟨_, rfl, fallsThrough_advance hpc⟩
  · simp only [testZero_iff, zero, if_false]
    exact takeJump_post a s

/-! ## Output (47_output.md) -/

/-- Settles O30: one register operand, and the print's frame. -/
theorem prrAppendsTheRegister : Obligations.PrrAppendsTheRegister := by
  intro s r hpc
  refine ⟨encodesAs_one_slot (i := .prr r) rfl rfl, ?_⟩
  simp only [exec, execPrr]
  exact withReg_post (Q := fun d t => Prints s t (s.reg d)) (fun d => ⟨_, rfl, prints_print_advance hpc _⟩) r

/-- Settles O31: an address that is never refused, and the print's frame. -/
theorem prmAppendsTheUnsignedWord : Obligations.PrmAppendsTheUnsignedWord := fun s a hpc =>
  ⟨encodesAs_one_slot (i := .prm a) rfl rfl, _, exec_prm a s, prints_print_advance hpc _⟩

/-- Settles O36: `PLEN` bounds the jump alone; the other three have an address that is never refused and a register
that is good. -/
theorem jumpBoundIsNotMemoryBound : Obligations.JumpBoundIsNotMemoryBound := by
  intro s a r beyond
  refine ⟨⟨_, takeJump_of_not_lt (by omega), faults_takeFault s _⟩, fun i hi => ?_⟩
  simp only [List.mem_cons, List.not_mem_nil, or_false] at hi
  obtain rfl | rfl | rfl := hi
  · exact ⟨_, exec_ldm_ofNat r a s, rfl, rfl⟩
  · exact ⟨_, exec_stm_ofNat a r s, rfl, rfl⟩
  · exact ⟨_, exec_prm a s, rfl, rfl⟩

/-! ## The operands of `add` and `sub` (44_arithmetic.md R150) -/

/-- The reduced result of an operation is read back as it is. -/
theorem reg_setReg_emod (s : State) (d : RegIdx) (n : Int) :
    (s.setReg d (emod n Config.sizeLim)).advance.reg d = n % 256 := by
  have := emod_sizeLim_range n
  exact reg_setReg_same s d (by omega) (by omega)

/-- Settles O32: the destination holds the exact result modulo 256, which the operands modulo 256 determine. -/
theorem addSubSeeOnlyLowBytes : Obligations.AddSubSeeOnlyLowBytes := by
  intro s s' d a b ha hb i hi
  simp only [emod] at ha hb
  simp only [List.mem_cons, List.not_mem_nil, or_false] at hi
  obtain rfl | rfl := hi
  all_goals
    simp only [exec, execAdd, execSub, withReg_ofNat, finish]
    refine ⟨_, _, rfl, rfl, ?_⟩
    simp only [reg_setReg_emod]
    omega

/-! ## The register check (60_exceptions.md R203, R209) -/

/-- If the rest of a handler takes the register fault with every good byte, the handler takes it with any byte. -/
theorem withReg_raises {r : Byte} {k : RegIdx → Outcome}
    (hk : ∀ hr : r.toNat < Config.numReg, k ⟨r.toNat, hr⟩ = raise .registerIndexOutOfRange s) :
    withReg r s k = raise .registerIndexOutOfRange s := by
  by_cases hr : r.toNat < Config.numReg
  · rw [withReg_of_lt hr, hk hr]
  · exact withReg_of_not_lt hr k

theorem not_lt_of_regByteOk {r : Byte} (h : regByteOk r = false) : ¬ r.toNat < Config.numReg := by
  simpa [regByteOk] using h

/-- One of three register bytes is bad, and the first such byte raises the fault. -/
theorem threeRegs_raise {rd ra rb : Byte} (h : (regByteOk rd && regByteOk ra && regByteOk rb) = false)
    (k : RegIdx → RegIdx → RegIdx → Outcome) :
    (withReg rd s fun d => withReg ra s fun i => withReg rb s fun j => k d i j) =
      raise .registerIndexOutOfRange s :=
  withReg_raises fun hd => withReg_raises fun ha => withReg_of_not_lt
    (fun hb => by simp [regByteOk_iff.mpr hd, regByteOk_iff.mpr ha, regByteOk_iff.mpr hb] at h) _

/-- A bad register byte of any instruction raises the fault, whatever the other operands. -/
theorem exec_of_not_wellFormed (h : i.wellFormed = false) : exec i s = raise .registerIndexOutOfRange s := by
  cases i with
  | hlt | nop | jmp | prm => cases h
  | ldi | jz | jnz | prr =>
    simp only [exec, execLdi, execJz, execJnz, execPrr]
    exact withReg_of_not_lt (not_lt_of_regByteOk h) _
  | ldm | stm =>
    simp only [exec_ldm, exec_stm]
    exact withReg_of_not_lt (not_lt_of_regByteOk h) _
  | mov rd rs =>
    simp only [exec, execMov]
    refine withReg_raises fun hd => withReg_of_not_lt (fun hs => ?_) _
    simp [Instr.wellFormed, regByteOk_iff.mpr hd, regByteOk_iff.mpr hs] at h
  | add | sub | eq | lt =>
    simp only [exec, execAdd, execSub, execEq, execLt]
    exact threeRegs_raise h _

/-- Settles O16: a bad byte raises the fault; and of all effects on a running machine only the one of a bad byte
records its kind. -/
theorem registerFaultExactlyOnBadRegisterByte : Obligations.RegisterFaultExactlyOnBadRegisterByte := by
  intro s i running
  constructor
  · rintro ⟨t, ht, faults⟩
    have status : t.status = .faulted := by rw [faults]
    have record : t.fault = some ⟨.registerIndexOutOfRange, s.pc, s.fetchedWord⟩ := by rw [faults]
    cases exec_effect ht with
    | badRegister bad => exact bad
    | badTarget => cases record
    | halt => cases status
    | jump | fall | writeReg | write | printReg | printWord => cases running.symm.trans status
  · intro bad
    exact ⟨_, exec_of_not_wellFormed bad, faults_takeFault s _⟩

end Sys2Proof.Proofs.Instructions

/-! PROOF. The rules of the step (40_step_cycle.md R100 to R108): when it is enabled, what runs, and what it does to
`pc`, `STATUS`, `FAULT` and `OUT`. -/

namespace Sys2Proof.Proofs.StepRules

open Sys2Proof.Laws Sys2Proof.Machine Sys2Proof.Proofs.Encoding Sys2Proof.Proofs.Iterations
open Sys2Proof.Proofs.Instructions

variable {op : OpcodeMap} {b : Option Nat} {s t : State} {i : Instr}

/-! ## When a step is enabled (R26, R100) -/

theorem runIteration_of_halted (b : Option Nat) (h : s.status = .halted) :
    runIteration op b s = .fault .stepWhenHalted := by
  simp only [runIteration, h]

theorem runIteration_of_faulted (b : Option Nat) (h : s.status = .faulted) :
    runIteration op b s = .fault .stepWhenFaulted := by
  simp only [runIteration, h]

theorem run_succ_of_fault {f : Fault} (h : runIteration op b s = .fault f) (n : Nat) :
    run op b (n + 1) s = .notEnabled f := by
  simp only [run, h]

/-- Settles O9: every step of R108 answers a next state, and a stopped machine makes none. -/
theorem stepEnabledExactlyWhenRunning : Obligations.StepEnabledExactlyWhenRunning := fun op _ =>
  ⟨fun ⟨_, h⟩ => runIteration_next_running h, runIteration_answers op none⟩

/-- Settles O10: an iteration on a stopped machine is the model's own stop, under any budget. -/
theorem stoppedMachineTakesNoStep : Obligations.StoppedMachineTakesNoStep := fun _ _ =>
  ⟨fun halted => ⟨runIteration_of_halted none halted, fun b => run_succ_of_fault (runIteration_of_halted b halted)⟩,
    fun faulted =>
      ⟨runIteration_of_faulted none faulted, fun b => run_succ_of_fault (runIteration_of_faulted b faulted)⟩⟩

/-! ## What a step runs (R101 to R105) -/

/-- Settles O8: the step decodes the word at `pc`, runs its handler and counts. -/
theorem stepRunsTheDecodedInstruction : Obligations.StepRunsTheDecodedInstruction :=
  ⟨step_eq_stepWith, fun _ _ _ _ running hi hu => stepWith_of_runs running hi hu⟩

/-- Settles O52: the canonical word decodes to its instruction, and every handler answers a next state. -/
theorem encodedInstructionRunsUnderEveryMap : Obligations.EncodedInstructionRunsUnderEveryMap := by
  intro op s i ⟨injective, _⟩ running hpc word
  have hi : s.runs op i := ⟨hpc, by rw [word, decodeWith_encodeWith injective]⟩
  obtain ⟨t, ht⟩ := exec_answers i s
  exact ⟨t, ht, stepWith_of_runs running hi ht⟩

/-- Settles O34: the address is the next `pc`, and the next fetch reads the stored word there. -/
theorem storedWordIsFetchedNext : Obligations.StoredWordIsFetchedNext := by
  intro op s a r running hi next
  have fetch_pc : (s.store a.toNat (trunc32 (s.reg r))).advance.pc.toNat = a.toNat := by
    rw [advance_pc_toNat (s.store ..) hi.1, store_pc, next]
  refine ⟨_, stepWith_of_runs running hi (exec_stm_ofNat a r s), by simpa using running, ?_⟩
  rw [counted_fetchedWord, fetchedWord_of_lt _ (by rw [fetch_pc]; exact a.isLt), fetch_pc, load_store_advance_same]

/-! ## Faults (R27, R200) -/

/-- Settles O14: every iteration that ends `Faulted` is the entry of a recordable fault. -/
theorem faultRecordHoldsPcAndFetchedWord : Obligations.FaultRecordHoldsPcAndFetchedWord := by
  intro op b s t h ht
  obtain ⟨k, w, rfl, ⟨word, fetched, -, -⟩, -⟩ :=
    fault_of_iteration (runIteration_next_running h) (iteration_of_next h) ht
  refine ⟨_, rfl, rfl, fun carries => ⟨fetched carries, ?_⟩, fun wordless => ?_⟩
  · rw [word, if_pos carries, fetchedWord_of_lt s (fetched carries)]
  · rw [word, wordless]
    rfl

/-- Settles O15: the same, for the kind of the record. -/
theorem addressAndLengthFaultsNeverRecorded : Obligations.AddressAndLengthFaultsNeverRecorded := by
  intro op b s t f h ht hf
  obtain ⟨k, w, rfl, recordable, -⟩ := fault_of_iteration (runIteration_next_running h) (iteration_of_next h) ht
  cases hf
  exact ⟨recordable.not_address, recordable.not_length⟩

/-! ## `pc` (R24, R106) -/

/-- An effect that does not fault adds 1 to `pc`, or jumps to the target inside the program. -/
theorem pc_of_unfaulted_effect (hpc : s.pc.toNat < 256) (h : Effect i s t) (ht : t.status ≠ .faulted) :
    t.pc.toNat = s.pc.toNat + 1 ∨
      ∃ a, jumpTarget i = some a ∧ a.toNat < s.plen.toNat ∧ t.pc.toNat = a.toNat := by
  cases h with
  | badRegister | badTarget => exact absurd rfl ht
  | jump a ha inside => exact .inr ⟨a, ha, inside, jumpTo_pc_toNat s a⟩
  | fall | halt | writeReg | write | printReg | printWord => exact .inl (advance_pc_toNat s hpc)

/-- Settles O44: a fault entry leaves `pc`, and every other step is an effect of the instruction at `pc`. -/
theorem pcMovesOnlyByTheRules : Obligations.PcMovesOnlyByTheRules := by
  intro op s t h
  have it := iteration_of_next h
  refine ⟨fun faulted => ?_, fun unfaulted => ?_⟩
  · obtain ⟨k, w, rfl, -⟩ := fault_of_iteration (runIteration_next_running h) it faulted
    rfl
  · cases it with
    | budget | outside | unknown => exact absurd rfl unfaulted
    | handler _ i hi u hu =>
      rw [counted_status] at unfaulted
      rw [counted_pc]
      obtain next | ⟨a, target, inside, jumped⟩ := pc_of_unfaulted_effect hi.1 (exec_effect hu) unfaulted
      · exact .inl next
      · exact .inr ⟨i, a, hi, target, inside, jumped⟩

/-! ## `STATUS` (R107, R110) -/

/-- On a running machine the handler that halts is the one of `hlt`. -/
theorem halted_iff_of_exec (hs : s.status = .running) (h : exec i s = .next t) : t.status = .halted ↔ i = .hlt := by
  constructor
  · intro halted
    cases exec_effect h with
    | halt hi => exact hi
    | badRegister | badTarget => cases halted
    | jump | fall | writeReg | write | printReg | printWord => cases hs.symm.trans halted
  · rintro rfl
    cases h
    rfl

/-- Settles O47: of all that a step can do only the handler of `hlt` halts. -/
theorem haltedExactlyByHlt : Obligations.HaltedExactlyByHlt := by
  intro op s t h
  have running := runIteration_next_running h
  cases iteration_of_next h with
  | budget hb => cases hb
  | outside _ hpc => exact iff_of_false nofun fun hi => by have := hi.1; omega
  | unknown _ _ hd =>
    obtain ⟨e, he⟩ := hd
    exact iff_of_false nofun fun hi => by cases he.symm.trans hi.2
  | handler _ i hi u hu =>
    rw [counted_status, halted_iff_of_exec running hu]
    exact ⟨fun hlt => hlt ▸ hi, eq_of_runs hi⟩

/-! ## `OUT` (R111) -/

/-- An instruction that is no print leaves `OUT`. -/
theorem out_of_effect (register : ∀ r, i ≠ .prr r) (word : ∀ a, i ≠ .prm a) (h : Effect i s t) : t.out = s.out := by
  cases h with
  | printReg r hi => exact absurd hi (register r)
  | printWord a hi => exact absurd hi (word a)
  | badRegister | badTarget | jump | fall | halt | writeReg | write => rfl

/-- A handler appends what its instruction prints, which is nothing where it faults. -/
theorem out_of_exec (hi : s.runs op i) (h : exec i s = .next t) : t.out = s.out ++ s.printed op := by
  cases i with
  | prr r =>
    simp only [exec, execPrr] at h
    obtain ⟨hr, h⟩ | ⟨hr, rfl⟩ := withReg_next h
    · simp only [finish_next.mp h, State.printed, hi.2, dif_pos hr, advance_out, print_out]
    · simp only [State.printed, hi.2, dif_neg (Nat.not_lt.mpr hr), List.append_nil, takeFault_out]
  | prm a =>
    rw [exec_prm, finish_next] at h
    simp only [h, State.printed, hi.2, advance_out, print_out]
  | _ =>
    simp only [State.printed, hi.2, List.append_nil]
    exact out_of_effect (by simp) (by simp) (exec_effect h)

theorem printed_eq_nil_of_error {e : DecodeReject} (h : decodeWith op (s.load s.pc.toNat) = .error e) :
    s.printed op = [] := by
  simp only [State.printed, h]

/-- No iteration loses what was printed. -/
theorem prefix_out_of_iteration (h : Iteration op b s t) : s.out <+: t.out := by
  cases h with
  | budget | outside | unknown => exact List.prefix_rfl
  | handler _ i hi u hu => exact ⟨_, by rw [counted_out, out_of_exec hi hu]⟩

/-- Settles O46: a step appends what its handler prints, and a run is made of iterations. -/
theorem outputListsPrintsInOrder : Obligations.OutputListsPrintsInOrder := by
  refine fun op => ⟨fun s t hpc h => ?_, fun s t hpc h => ?_, fun b n s t h => ?_⟩
  · cases iteration_of_next h with
    | budget hb => cases hb
    | outside _ outside => exact absurd hpc (Nat.not_lt.mpr outside)
    | unknown _ _ hd =>
      obtain ⟨e, he⟩ := hd
      rw [printed_eq_nil_of_error he, List.append_nil, takeFault_out]
    | handler _ i hi u hu => rw [counted_out, out_of_exec hi hu]
  · cases iteration_of_next h with
    | budget | outside => rfl
    | unknown _ inside => exact absurd inside hpc
    | handler _ i hi => exact absurd hi.1 hpc
  · exact run_keeps (P := fun u => s.out <+: u.out)
      (fun _ _ printed h => printed.trans (prefix_out_of_iteration (iteration_of_next h))) n List.prefix_rfl h

end Sys2Proof.Proofs.StepRules

/-! PROOF. The run loop and its budget (40_step_cycle.md R109, R110): what every run keeps, that a budgeted run ends,
and where the budget is felt. -/

namespace Sys2Proof.Proofs.RunLoop

open Sys2Proof.Laws Sys2Proof.Machine Sys2Proof.Proofs.Exceptions Sys2Proof.Proofs.Iterations

variable {op : OpcodeMap} {b : Option Nat} {s t u : State} {n : Nat}

/-! ## The loop, one iteration at a time -/

theorem run_succ_of_running (h : runIteration op b s = .next u) (hu : u.status = .running) (fuel : Nat) :
    run op b (fuel + 1) s = run op b fuel u := by
  simp only [run, h, hu]

theorem run_succ_of_halted (h : runIteration op b s = .next u) (hu : u.status = .halted) (fuel : Nat) :
    run op b (fuel + 1) s = .halted u := by
  simp only [run, h, hu]

/-- A run that halted or faulted made a last iteration, to a state with that status, from a state that has whatever
every iteration keeps. -/
theorem last_iteration {P : State → Prop} (keeps : ∀ s t, P s → runIteration op b s = .next t → P t) (fuel : Nat)
    (hs : P s) :
    (run op b fuel s = .halted t → ∃ r, P r ∧ runIteration op b r = .next t ∧ t.status = .halted) ∧
      (run op b fuel s = .faulted t → ∃ r, P r ∧ runIteration op b r = .next t ∧ t.status = .faulted) := by
  induction fuel generalizing s with
  | zero => exact ⟨nofun, nofun⟩
  | succ fuel ih =>
    cases hit : runIteration op b s with
    | next u =>
      cases hu : u.status with
      | running =>
        rw [run_succ_of_running hit hu]
        exact ih (keeps s u hs hit)
      | halted =>
        rw [run_succ_of_halted hit hu]
        exact ⟨fun h => by cases h; exact ⟨s, hs, hit, hu⟩, nofun⟩
      | faulted =>
        rw [run_succ_of_faulted hit hu]
        exact ⟨nofun, fun h => by cases h; exact ⟨s, hs, hit, hu⟩⟩
    | fault f => simp [run, hit]
    | refused r => simp [run, hit]

/-! ## `PLEN` (R25) -/

/-- Settles O45: no iteration changes `PLEN`. -/
theorem noRunChangesTheProgramLength : Obligations.NoRunChangesTheProgramLength := fun _ _ n s _ h =>
  run_keeps (P := fun u => u.plen = s.plen)
    (fun _ _ kept h => (plen_of_iteration (iteration_of_next h)).trans kept) n rfl h

/-! ## The count (R109) -/

/-- A count never goes down. -/
theorem steps_le_of_runIteration (h : runIteration op b s = .next t) : s.steps ≤ t.steps := by
  rw [steps_of_iteration (iteration_of_next h)]
  split <;> omega

theorem steps_of_runIteration_of_halted (h : runIteration op b s = .next t) (ht : t.status = .halted) :
    t.steps = s.steps + 1 := by
  rw [steps_of_iteration (iteration_of_next h), ht]
  rfl

theorem steps_of_runIteration_of_faulted (h : runIteration op b s = .next t) (ht : t.status = .faulted) :
    t.steps = s.steps := by
  rw [steps_of_iteration (iteration_of_next h), if_pos ht]

/-- No iteration counts beyond the budget: at the budget it faults. -/
theorem steps_le_budget (hs : s.steps ≤ n) (h : runIteration op (some n) s = .next t) : t.steps ≤ n := by
  cases iteration_of_next h with
  | budget | outside | unknown => exact hs
  | handler hb i hi u hu =>
    have below : n ≠ s.steps := fun e => hb (congrArg some e)
    have := steps_of_iteration (iteration_of_next h)
    split at this <;> omega

/-- At the budget the loop faults before the step (R207). -/
theorem runIteration_at_budget (op : OpcodeMap) (hs : s.status = .running) :
    runIteration op (some s.steps) s = .next (s.takeFault .stepBudgetExceeded none) := by
  rw [runIteration_of_running op _ hs, if_pos rfl]

/-- Off the budget the loop does what it does without one. -/
theorem runIteration_off_budget (h : s.steps ≠ n) : runIteration op (some n) s = runIteration op none s := by
  have : some n ≠ some s.steps := fun e => h (Option.some.inj e).symm
  simp only [runIteration, this, reduceCtorEq, if_false]

/-- Under a budget the loop halts or faults before it was given more iterations than steps are left, and one. -/
theorem budgeted_run_ends (fuel : Nat) (running : s.status = .running) (hs : s.steps ≤ n) (hn : n < s.steps + fuel) :
    ∃ t, run op (some n) fuel s = .halted t ∨ run op (some n) fuel s = .faulted t := by
  induction fuel generalizing s with
  | zero => omega
  | succ fuel ih =>
    obtain ⟨u, hit⟩ := runIteration_answers op (some n) running
    cases hu : u.status with
    | running =>
      rw [run_succ_of_running hit hu]
      have counted : u.steps = s.steps + 1 := by
        rw [steps_of_iteration (iteration_of_next hit), hu]
        rfl
      exact ih hu (steps_le_budget hs hit) (by omega)
    | halted => exact ⟨u, .inl (run_succ_of_halted hit hu fuel)⟩
    | faulted => exact ⟨u, .inr (run_succ_of_faulted hit hu fuel)⟩

/-- Settles O48: a budgeted run ends, and no iteration of it counts beyond the budget. -/
theorem budgetedRunEnds : Obligations.BudgetedRunEnds := by
  intro op n fuel s running hs hn
  obtain ⟨t, ended⟩ := budgeted_run_ends (op := op) fuel running hs hn
  have stands : (run op (some n) fuel s).state? = some t := by
    obtain h | h := ended
    · rw [h, RunOutcome.state?]
    · rw [h, RunOutcome.state?]
  exact ⟨t, ended, run_keeps (fun _ _ => steps_le_budget) fuel hs stands⟩

/-! ## The budget's fault (R207) -/

/-- An iteration that faults records the budget's fault exactly at the budget. -/
theorem budget_fault_iff (h : runIteration op b s = .next t) (ht : t.status = .faulted) :
    (∃ f, t.fault = some f ∧ f.kind = .stepBudgetExceeded) ↔ b = some s.steps := by
  obtain ⟨k, w, rfl, -, budget⟩ := fault_of_iteration (runIteration_next_running h) (iteration_of_next h) ht
  rw [← budget]
  simp

/-- Settles O49: the last iteration decides; it leaves the count, and no budget is never at the count. -/
theorem budgetFaultExactlyAtTheBudget : Obligations.BudgetFaultExactlyAtTheBudget := by
  constructor
  · intro op n fuel s t _ _ h
    obtain ⟨r, -, last, faulted⟩ := (last_iteration (P := fun _ => True) (fun _ _ _ _ => trivial) fuel trivial).2 h
    rw [budget_fault_iff last faulted, steps_of_runIteration_of_faulted last faulted, Option.some.injEq, eq_comm]
  · intro op fuel s t f h hf kind
    obtain ⟨r, -, last, faulted⟩ := (last_iteration (P := fun _ => True) (fun _ _ _ _ => trivial) fuel trivial).2 h
    cases (budget_fault_iff last faulted).mp ⟨f, hf, kind⟩

/-! ## A budget that is not reached (R109) -/

/-- If every run with no budget to the outcome `o` starts below the budget, the budget changes none of them. -/
theorem run_eq_of_below {o : RunOutcome} (below : ∀ r fuel, run op none fuel r = o → r.steps < n) (fuel : Nat)
    (h : run op none fuel s = o) : run op (some n) fuel s = o := by
  induction fuel generalizing s with
  | zero => exact h
  | succ fuel ih =>
    have same := runIteration_off_budget (op := op) (below s (fuel + 1) h).ne
    cases hit : runIteration op none s with
    | next u =>
      rw [hit] at same
      cases hu : u.status with
      | running =>
        rw [run_succ_of_running same hu]
        exact ih ((run_succ_of_running hit hu fuel).symm.trans h)
      | halted => rwa [run_succ_of_halted same hu, ← run_succ_of_halted hit hu fuel]
      | faulted => rwa [run_succ_of_faulted same hu, ← run_succ_of_faulted hit hu fuel]
    | fault f => simpa only [run, same, hit] using h
    | refused r => simpa only [run, same, hit] using h

/-- A run from `s` goes through states that count no less than `s`. -/
theorem steps_le_kept (s u v : State) (hu : s.steps ≤ u.steps) (h : runIteration op b u = .next v) :
    s.steps ≤ v.steps := hu.trans (steps_le_of_runIteration h)

/-- Settles O50: a run that halts with the count at the budget started below it, since the `hlt` was counted; and so
did one that faults with the count below it. -/
theorem unreachedBudgetChangesNothing : Obligations.UnreachedBudgetChangesNothing := by
  refine fun op n fuel s t _ => ⟨fun h ht => run_eq_of_below (fun r k hr => ?_) fuel h,
    fun h ht => run_eq_of_below (fun r k hr => ?_) fuel h⟩
  · obtain ⟨q, hq, last, halted⟩ := (last_iteration (steps_le_kept r) k le_rfl).1 hr
    have := steps_of_runIteration_of_halted last halted
    omega
  · obtain ⟨q, hq, last, faulted⟩ := (last_iteration (steps_le_kept r) k le_rfl).2 hr
    have := steps_of_runIteration_of_faulted last faulted
    omega

/-- Settles O51: at the budget the first iteration faults; one below it the first iteration runs the `hlt`. -/
theorem budgetIsComparedBeforeTheStep : Obligations.BudgetIsComparedBeforeTheStep := by
  intro op s running
  refine ⟨run_succ_of_faulted (runIteration_at_budget op running) rfl, fun hi n => ?_⟩
  have step : runIteration op (some (s.steps + 1)) s = .next (counted s.halt.advance) :=
    (runIteration_off_budget (by omega)).trans (stepWith_of_runs running hi rfl)
  exact ⟨_, run_succ_of_halted step rfl n, rfl⟩

end Sys2Proof.Proofs.RunLoop
